-- ==== Sys2Proof/Word.lean ====
section
/-! DEFINITION. The words of the Pixel-Stream Engine (PSE): bytes, 64-bit pixel counts, and the Pixel, the
four-channel value every register of the datapath holds (spec 00_scope.md R8, 10_state.md R11, R14). -/

namespace Sys2Proof

/-- A byte: an unsigned integer 0..255, bit 7 the most significant (R8). -/
abbrev Byte := BitVec 8

/-- A pixel count: `CNT_W` = 64 bits unsigned (R7, R14, R15). -/
abbrev Count := BitVec 64

/-- A Pixel: four 8-bit unsigned channels (R8, R11). Two pixels are equal when all four channels are (R75), which
is what the derived equality says. -/
structure Pixel where
  r : Byte
  g : Byte
  b : Byte
  a : Byte
  deriving DecidableEq, Repr

end Sys2Proof
end

