-- ==== Sys2Proof/Config.lean ====
section
/-! DEFINITION. What is fixed for the machine (spec 00_scope.md R6, R7, R8). The spec leaves no value open that a
step could read, so there is no free value here: the one open parameter that a machine run sees, `LEN`, is the length
of the byte list a START binds (93_implementation_defined.md U11), and the one open host parameter, `COLORSPACE`, is an
argument of the host sequence (U12). `BPOS_W` is left open by R7 ("the model takes BPOS as a natural number"). -/

namespace Sys2Proof

/-- The number of slots of the colour cache (R6, R12). -/
abbrev slotCount : Nat := 64

/-- `START_PIXEL` of R8: the value of PREV at stream start (R11, R176). -/
def startPixel : Pixel := ⟨0, 0, 0, 255⟩

/-- `ZERO` of R8: the value of every cache slot at stream start (R12, R176). -/
def zeroPixel : Pixel := ⟨0, 0, 0, 0⟩

end Sys2Proof
end

