-- ==== Sys2Proof/Syntax.lean ====
section
/-! DEFINITION. The instruction set of the PSE: the six chunk operators (spec 30_encoding.md R50, opcode_table.json). -/

namespace Sys2Proof

/-- One constructor per row of opcode_table.json; the operands are the fields of the chunk as stored, before any bias
is taken off (R53 to R59). -/
inductive Instr where
  /-- RGB (R53): three absolute samples. -/
  | rgb (r g b : Byte)
  /-- RGBA (R54): four absolute samples. -/
  | rgba (r g b a : Byte)
  /-- INDEX (R55): a cache slot number 0..63. -/
  | index (idx : BitVec 6)
  /-- DIFF (R56): three deltas, each biased by 2. -/
  | diff (fr fg fb : BitVec 2)
  /-- LUMA (R58): the green delta biased by 32; red minus green and blue minus green, each biased by 8. -/
  | luma (fgl : BitVec 6) (frg fbg : BitVec 4)
  /-- RUN (R59): the run length minus 1. -/
  | run (s : BitVec 6)
  deriving DecidableEq, Repr

end Sys2Proof
end

