-- ==== Sys2Proof/WellFormed.lean ====
section
/-! DEFINITION. Which terms of `Instr` are chunks of the format (spec 30_encoding.md R59, R61). -/

namespace Sys2Proof

/-- Every field value of every operator is valid (R55, R56, R58, R61) but for RUN, whose stored value is 0..61:
"Payloads 62 and 63 do not exist for RUN: those two bytes are RGB and RGBA" (R59). -/
def Instr.wellFormed : Instr → Bool
  | .rgb _ _ _ => true
  | .rgba _ _ _ _ => true
  | .index _ => true
  | .diff _ _ _ => true
  | .luma _ _ _ => true
  | .run s => decide (s.toNat ≤ 61)

end Sys2Proof
end

