-- ==== Sys2Proof/Decode.lean ====
section
/-! DEFINITION. The decoder of chunks, total on any bytes, and after it the encoder (spec 30_encoding.md). -/

namespace Sys2Proof

/-- Why a byte list does not begin with a whole chunk. Every byte value is a valid tag and every operand byte is valid
(R61), so being cut short is the only way (60_exceptions.md R151). -/
inductive DecodeError where
  /-- No byte at all: there is no tag to dispatch on. -/
  | noTag
  /-- The tag of RGB with fewer than 3 bytes after it. -/
  | cutRgb
  /-- The tag of RGBA with fewer than 4 bytes after it. -/
  | cutRgba
  /-- The tag of LUMA with no byte after it. -/
  | cutLuma
  deriving DecidableEq, Repr

/-- The category of a tag byte, `T[7:6]` (R52). -/
def top2 (t : Byte) : BitVec 2 := t.extractLsb' 6 2

/-- The payload of a tag byte, `T & 0x3F` (R52). -/
def payload (t : Byte) : BitVec 6 := t.extractLsb' 0 6

/-- The chunk a tag and the (up to four) bytes after it stand for. The tests are in the order of R60: the two whole-byte
tags first, then the category; every tag takes exactly one arm. Bytes the operator does not have are not looked at. -/
def chunkOf (t b1 b2 b3 b4 : Byte) : Instr :=
  if t = 0xFE#8 then .rgb b1 b2 b3
  else if t = 0xFF#8 then .rgba b1 b2 b3 b4
  else if top2 t = 0b00#2 then .index (payload t)
  else if top2 t = 0b01#2 then .diff (t.extractLsb' 4 2) (t.extractLsb' 2 2) (t.extractLsb' 0 2)
  else if top2 t = 0b10#2 then .luma (payload t) (b1.extractLsb' 4 4) (b1.extractLsb' 0 4)
  else .run (payload t)

/-- The number of bytes of a chunk (R51, R53 to R59). -/
def Instr.length : Instr → Nat
  | .rgb _ _ _ => 4
  | .rgba _ _ _ _ => 5
  | .index _ => 1
  | .diff _ _ _ => 1
  | .luma _ _ _ => 2
  | .run _ => 1

/-- The number of bytes of the chunk whose tag is `t`: "a function of its tag byte alone" (R51). -/
def chunkLength (t : Byte) : Nat := (chunkOf t 0 0 0 0).length

/-- Which chunk is cut when a tag has too few bytes after it: only RGB, RGBA and LUMA have trailing bytes (R51, R151). -/
def cutError (t : Byte) : DecodeError :=
  if t = 0xFE#8 then .cutRgb else if t = 0xFF#8 then .cutRgba else .cutLuma

/-- Reads one chunk off the front of a byte list: the chunk and the bytes after it, or the reason there is none. -/
def decode : List Byte → Except DecodeError (Instr × List Byte)
  | [] => .error .noTag
  | t :: rest =>
    let i := chunkOf t (rest.getD 0 0) (rest.getD 1 0) (rest.getD 2 0) (rest.getD 3 0)
    if i.length ≤ rest.length + 1 then .ok (i, rest.drop (i.length - 1)) else .error (cutError t)

/-- The bytes of an instruction word as opcode_table.json numbers its bits: the first byte is bits 7..0, the second
bits 15..8, and so on; bits at `nbits` and above are 0; five bytes, the longest chunk (R51). -/
def tableWordBytes (nbits w : Nat) : List Byte :=
  (List.range 5).map fun k => BitVec.ofNat 8 ((w % 2 ^ nbits) / 256 ^ k)

/-- The instruction the decoder reads from a word numbered as the opcode table numbers it. -/
def decodeTableWord (nbits w : Nat) : Option Instr :=
  match decode (tableWordBytes nbits w) with
  | .ok (i, _) => some i
  | .error _ => none

/-- The bytes of a chunk, tag first: the formats of R53 to R59 (for the encoder, decision D26). -/
def encode : Instr → List Byte
  | .rgb r g b => [0xFE, r, g, b]
  | .rgba r g b a => [0xFF, r, g, b, a]
  | .index idx => [0b00#2 ++ idx]
  | .diff fr fg fb => [0b01#2 ++ fr ++ fg ++ fb]
  | .luma fgl frg fbg => [0b10#2 ++ fgl, frg ++ fbg]
  | .run s => [0b11#2 ++ s]

/-- The end marker: "the 64-bit big-endian integer `1` (seven zero bytes followed by 0x01)" (R144). It is not a chunk
(R62). -/
def endMarker : List Byte := [0, 0, 0, 0, 0, 0, 0, 1]

end Sys2Proof
end

