-- ==== Sys2Proof/Machine/State.lean ====
section
/-! DEFINITION. The state of the PSE as plain data, and its value at reset (spec 10_state.md R10 to R24, 20_memory.md
R30). -/

namespace Sys2Proof.Machine

/-- Why a step stops with a fault. -/
inductive Fault where
  /-- Raised by the commit of a pixel (RGB, RGBA, INDEX, DIFF, LUMA, RUN) when `CNT` is not below `NPIX`: DEC_OUT ends at
  byte `4 × NPIX` (R30, R34), so the pixel's address does not exist. No state a run reaches raises it: the decode step tests
  `CNT == NPIX` first (R85). Safe: the model stops. -/
  | pastImage
  deriving DecidableEq, Repr

/-- Why an instruction has no meaning in a state. -/
inductive Refusal where
  /-- An instruction not modelled yet, by its mnemonic; no arm of `exec` answers this. Safe. -/
  | notModelled (mnemonic : String)
  /-- Raised by RUN with stored value 62 or 63, which "do not exist for RUN" (R59). The decoder never yields it, since
  those two bytes are the tags of RGB and RGBA (R60). Safe: the model stops. -/
  | noSuchChunk
  deriving DecidableEq, Repr

/-- The error kinds of R150. The first three are the host's and the Header Codec's; the PSE raises the others. -/
inductive Condition where
  | fileNotFound
  | headerMalformed
  | allocationFailure
  | truncatedStream
  | trailerMismatch
  | underfilledOutput
  | badParam
  deriving DecidableEq, Repr

/-- MODE (R18). -/
inductive Mode where
  | dec
  | enc
  deriving DecidableEq, Repr

/-- PHASE (R19): "value 3 is never taken". -/
inductive Phase where
  | idle
  | body
  | done
  deriving DecidableEq, Repr

/-- The stored flags of STATUS (R20). BUSY and DONE "read as" functions of PHASE and are computed in Machine/Flags.lean. -/
structure Status where
  trunc : Bool
  underfill : Bool
  trailerBad : Bool
  badParam : Bool
  deriving DecidableEq, Repr

/-- An output space (R30: write only): the bytes written so far, by address. The form is canonical: addresses strictly
rising. An address not listed has NO value: "the model gives them no value" (R47). -/
structure Memory where
  cells : List Host.Cell
  deriving DecidableEq, Repr

/-- An output space in which nothing has been written. -/
def Memory.empty : Memory := ⟨[]⟩

/-- What the outside does between two steps: the commands of R21 with the spaces they bind, and hardware reset (R175). -/
inductive HostEvent where
  /-- Nothing: the PSE takes its next step. -/
  | quiet
  /-- `START_DEC(N)`, binding DEC_IN to `source` (LEN bytes) and DEC_OUT to a buffer the operation has not written. -/
  | startDec (n : Count) (source : List Byte)
  /-- `START_ENC(N, CHANNELS)`, binding ENC_IN to `samples` and ENC_OUT to a stream the operation has not written. -/
  | startEnc (n : Count) (channels : Nat) (samples : List Byte)
  /-- `ABORT`. -/
  | abort
  /-- Hardware reset. -/
  | hardReset
  deriving DecidableEq, Repr

/-- The state of the PSE: the registers of R10, the four spaces of R30, and the commands still to come. -/
structure State where
  /-- CACHE[0..63] (R12). -/
  cache : Vector Pixel 64
  /-- PREV (R11). -/
  prev : Pixel
  /-- BPOS, the byte cursor and program counter, a natural number (R13). -/
  bpos : Nat
  /-- CNT (R14). -/
  cnt : Count
  /-- NPIX (R15). -/
  npix : Count
  /-- RUNLEN (R16). -/
  runLen : BitVec 6
  /-- HASALPHA (R17). -/
  hasAlpha : Bool
  /-- MODE (R18). -/
  mode : Mode
  /-- PHASE (R19). -/
  phase : Phase
  /-- STATUS (R20). -/
  status : Status
  /-- DEC_IN: the LEN bytes of the byte source, offset 0 first (R33). -/
  decIn : List Byte
  /-- DEC_OUT (R34). -/
  decOut : Memory
  /-- ENC_IN: the input samples, offset 0 first (R36). -/
  encIn : List Byte
  /-- ENC_OUT (R35). -/
  encOut : Memory
  /-- The command port (R21): what the host does at each coming boundary between steps, soonest first; after the last
  entry it does nothing more. -/
  port : List HostEvent
  deriving DecidableEq, Repr

/-- The machine after hardware reset: the column "after hardware reset" of R24, no space bound, no command pending. -/
def State.reset : State where
  cache := Vector.replicate 64 zeroPixel
  prev := startPixel
  bpos := 0
  cnt := 0
  npix := 0
  runLen := 0
  hasAlpha := false
  mode := .dec
  phase := .idle
  status := ⟨false, false, false, false⟩
  decIn := []
  decOut := Memory.empty
  encIn := []
  encOut := Memory.empty
  port := []

end Sys2Proof.Machine
end

