-- ==== Sys2Proof/Machine/Operands.lean ====
section
/-! DEFINITION. The operand forms of the chunks and the wraparound delta unit (spec 30_encoding.md R57,
40_cache_and_delta.md R70, R76, R77), pure functions all. -/

namespace Sys2Proof.Machine

/-- The signed value of a biased field: `f − β` with `β = 2^(w−1)` (R57). -/
def unbias (w : Nat) (f : BitVec w) : Int := (f.toNat : Int) - (2 ^ (w - 1) : Nat)

/-- `add8(x, d) = (x + d) mod 256` for a byte and any integer (R76). -/
def add8 (x : Byte) (d : Int) : Byte := BitVec.ofInt 8 ((x.toNat : Int) + d)

/-- `sub8(x, y) = (x − y) mod 256` (R77). -/
def sub8 (x y : Byte) : Byte := BitVec.ofInt 8 ((x.toNat : Int) - (y.toNat : Int))

/-- `index(p) = (3r + 5g + 7b + 11a) mod 64`, over the integers (R70). -/
def cacheIndex (p : Pixel) : Fin 64 :=
  Fin.ofNat 64 (p.r.toNat * 3 + p.g.toNat * 5 + p.b.toNat * 7 + p.a.toNat * 11)

/-- `inDiff(d) = ((d + 2) mod 256) ≤ 3` (R77). -/
def inDiff (d : Byte) : Bool := decide ((d.toNat + 2) % 256 ≤ 3)

/-- `inLumaG(d) = ((d + 32) mod 256) ≤ 63` (R77). -/
def inLumaG (d : Byte) : Bool := decide ((d.toNat + 32) % 256 ≤ 63)

/-- `inLumaRB(e) = ((e + 8) mod 256) ≤ 15` (R77). -/
def inLumaRB (e : Byte) : Bool := decide ((e.toNat + 8) % 256 ≤ 15)

/-- The field a delta is stored in: `(d + β) mod 256`, which fits `w` bits when the range test held (R57, R77). -/
def biased (w : Nat) (d : Byte) : BitVec w := BitVec.ofNat w ((d.toNat + 2 ^ (w - 1)) % 256)

/-- The pixel of a DIFF chunk: the three deltas on the colour channels of `q`, its alpha unchanged (R91). -/
def diffPixel (q : Pixel) (fr fg fb : BitVec 2) : Pixel :=
  ⟨add8 q.r (unbias 2 fr), add8 q.g (unbias 2 fg), add8 q.b (unbias 2 fb), q.a⟩

/-- The pixel of a LUMA chunk: the green delta, and it plus the red and blue differences, on the channels of `q`; its
alpha unchanged (R92). -/
def lumaPixel (q : Pixel) (fgl : BitVec 6) (frg fbg : BitVec 4) : Pixel :=
  ⟨add8 q.r (unbias 4 frg + unbias 6 fgl), add8 q.g (unbias 6 fgl), add8 q.b (unbias 4 fbg + unbias 6 fgl), q.a⟩

/-- The length a RUN's stored value stands for, 1..62 (R57, R59). -/
def runLength (s : BitVec 6) : Nat := s.toNat + 1

/-- The 32-bit packing of a Pixel, r in bits 31:24 down to a in bits 7:0; no rule depends on it (R11). -/
def packPixel (p : Pixel) : BitVec 32 := p.r ++ p.g ++ p.b ++ p.a

end Sys2Proof.Machine
end

