-- ==== Sys2Proof/Machine/Flags.lean ====
section
/-! DEFINITION. The status flags and the codes of the enumerated registers (spec 10_state.md R18 to R20,
60_exceptions.md R150). -/

namespace Sys2Proof.Machine

/-- STATUS.BUSY "reads as `PHASE == BODY`" (R20). -/
def busyFlag (s : State) : Bool := decide (s.phase = .body)

/-- STATUS.DONE "reads as `PHASE == DONE`" (R20). -/
def doneFlag (s : State) : Bool := decide (s.phase = .done)

/-- STATUS packed in the bit positions of R20: BADPARAM, TRAILER_BAD, UNDERFILL, TRUNC, DONE, BUSY from bit 5 down. -/
def statusWord (s : State) : BitVec 6 :=
  BitVec.ofBool s.status.badParam ++ BitVec.ofBool s.status.trailerBad ++ BitVec.ofBool s.status.underfill ++
    BitVec.ofBool s.status.trunc ++ BitVec.ofBool (doneFlag s) ++ BitVec.ofBool (busyFlag s)

/-- MODE as its bit (R18). -/
def modeBit : Mode → BitVec 1
  | .dec => 0
  | .enc => 1

/-- PHASE as its two bits (R19). -/
def phaseBits : Phase → BitVec 2
  | .idle => 0
  | .body => 1
  | .done => 2

/-- The number of a condition (R150). -/
def conditionCode : Condition → Nat
  | .fileNotFound => 1
  | .headerMalformed => 2
  | .allocationFailure => 3
  | .truncatedStream => 4
  | .trailerMismatch => 5
  | .underfilledOutput => 6
  | .badParam => 7

/-- The flag a condition sets (the STATUS column of R150); the PSE has none for the host's conditions (R155 to R157).
Flags are sticky: nothing here clears one (R20). -/
def setFlag (c : Condition) (f : Status) : Status :=
  match c with
  | .fileNotFound => f
  | .headerMalformed => f
  | .allocationFailure => f
  | .truncatedStream => { f with trunc := true }
  | .trailerMismatch => { f with trailerBad := true }
  | .underfilledOutput => { f with underfill := true }
  | .badParam => { f with badParam := true }

/-- The four stored flags all 0, as after reset and after START (R20, R24). -/
def clearFlags : Status := ⟨false, false, false, false⟩

end Sys2Proof.Machine
end

