-- ==== Sys2Proof/Machine/Ops.lean ====
section
/-! DEFINITION. The named operations over the spaces and the registers (spec 00_scope.md R8, 20_memory.md R30 to R36,
40_cache_and_delta.md R71, R72), and taking a condition (60_exceptions.md R150 to R162). -/

namespace Sys2Proof.Machine

/-! ### The output spaces -/

/-- The list of cells has its addresses strictly rising. -/
def cellsSorted : List Host.Cell → Bool
  | [] => true
  | [_] => true
  | c :: d :: rest => decide (c.1 < d.1) && cellsSorted (d :: rest)

/-- The canonical form of a memory. No cell can equal what an unlisted address reads as, since that is no value. -/
def Memory.wf (m : Memory) : Bool := cellsSorted m.cells

/-- The byte a list of cells holds at an address, if it holds one. -/
def cellAt : List Host.Cell → Nat → Option Byte
  | [], _ => none
  | c :: rest, a => if c.1 = a then some c.2 else cellAt rest a

/-- The byte written at an address, or no value (R47). -/
def Memory.read (m : Memory) (a : Nat) : Option Byte := cellAt m.cells a

/-- Puts a byte in its place in a rising list of cells. -/
def putCell (a : Nat) (v : Byte) : List Host.Cell → List Host.Cell
  | [] => [(a, v)]
  | c :: rest =>
    if a < c.1 then (a, v) :: c :: rest
    else if c.1 = a then (a, v) :: rest
    else c :: putCell a v rest

/-- Writes one byte. -/
def Memory.write (m : Memory) (a : Nat) (v : Byte) : Memory := ⟨putCell a v m.cells⟩

/-- `MemWrite(a, n, v)`: the bytes at consecutive offsets from `a` on (R8). -/
def Memory.writeBytes (m : Memory) (a : Nat) : List Byte → Memory
  | [] => m
  | v :: rest => (m.write a v).writeBytes (a + 1) rest

/-- The `n` bytes from `a` on, where all of them have been written. -/
def Memory.readBytes (m : Memory) (a : Nat) : Nat → Option (List Byte)
  | 0 => some []
  | n + 1 => do
    let v ← m.read a
    let rest ← m.readBytes (a + 1) n
    return v :: rest

/-! ### Decode input and output -/

/-- `Avail(n)`: `BPOS + n ≤ LEN` (R8, R33). -/
def State.avail (s : State) (n : Nat) : Bool := decide (s.bpos + n ≤ s.decIn.length)

/-- BPOS moves past `n` bytes (R13). -/
def State.advance (s : State) (n : Nat) : State := { s with bpos := s.bpos + n }

/-- The byte of DEC_IN `k` bytes after BPOS. Past LEN there is none and 0 stands in; no operator uses it, since every one
with trailing bytes tests `Avail` first (R94). -/
def State.fetchByte (s : State) (k : Nat) : Byte := s.decIn.getD (s.bpos + k) 0

/-- The chunk at BPOS: dispatch on the tag there (R60, R85). -/
def State.fetchChunk (s : State) : Instr :=
  chunkOf (s.fetchByte 0) (s.fetchByte 1) (s.fetchByte 2) (s.fetchByte 3) (s.fetchByte 4)

/-- The first byte of pixel number `i` in DEC_OUT (R34). -/
def pixelAddr (i : Count) : Nat := 4 * i.toNat

/-- The four bytes of a pixel in DEC_OUT: r, g, b, a (R34). -/
def pixelBytes (p : Pixel) : List Byte := [p.r, p.g, p.b, p.a]

/-- `OutPixel(p)`: `MemWrite(4 × CNT, 4, p); CNT <- CNT + 1` (R8, R34). -/
def State.outPixel (s : State) (p : Pixel) : State :=
  { s with decOut := s.decOut.writeBytes (pixelAddr s.cnt) (pixelBytes p), cnt := s.cnt + 1 }

/-- `OutPixel(p)` repeated `k` times (R93). -/
def State.outPixels (s : State) (p : Pixel) : Nat → State
  | 0 => s
  | k + 1 => (s.outPixel p).outPixels p k

/-! ### The registers of the datapath -/

/-- `lookup(i)`: `CACHE[i]` (R71). -/
def State.lookup (s : State) (i : Fin 64) : Pixel := s.cache[i]

/-- `update(p)`: `CACHE[index(p)] <- p` (R72). -/
def State.update (s : State) (p : Pixel) : State := { s with cache := s.cache.set (cacheIndex p).val p (cacheIndex p).isLt }

/-- `PREV <- p` (R11). -/
def State.setPrev (s : State) (p : Pixel) : State := { s with prev := p }

/-! ### Encode input and output -/

/-- `InPixel(CNT)` (R36): the pixel at offset `C × CNT`, its alpha 255 when HASALPHA is 0; none past `NPIX` or where the
host supplied too few bytes ("no rule gives it a value"). -/
def State.inPixel (s : State) : Option Pixel :=
  if s.cnt < s.npix then
    match s.hasAlpha, s.encIn.drop ((if s.hasAlpha then 4 else 3) * s.cnt.toNat) with
    | true, r :: g :: b :: a :: _ => some ⟨r, g, b, a⟩
    | false, r :: g :: b :: _ => some ⟨r, g, b, 255⟩
    | true, _ => none
    | false, _ => none
  else none

/-- `OutByte` for each byte of a list: `MemWrite(BPOS, 1, b); BPOS <- BPOS + 1` (R8, R35). -/
def State.outBytes (s : State) (bs : List Byte) : State :=
  { s with encOut := s.encOut.writeBytes s.bpos bs, bpos := s.bpos + bs.length }

/-! ### Conditions -/

/-- `raise c` (R8): taking a condition sets its STATUS flag, and TruncatedStream also consumes the bytes that were there
(`BPOS <- LEN`, R94). "Raising a PSE condition saves nothing and transfers control nowhere" (R161), and there is no
return (R162). -/
def State.raise (s : State) (c : Condition) : State :=
  match c with
  | .truncatedStream => { s with status := setFlag .truncatedStream s.status, bpos := s.decIn.length }
  | .trailerMismatch => { s with status := setFlag .trailerMismatch s.status }
  | .underfilledOutput => { s with status := setFlag .underfilledOutput s.status }
  | .badParam => { s with status := setFlag .badParam s.status }
  | .fileNotFound => s
  | .headerMalformed => s
  | .allocationFailure => s

/-! ### What the operators share -/

/-- The outcome of a step of the PSE. -/
abbrev Result := Host.Outcome State Fault Refusal

/-- The commit of a formed pixel without a cache write: `OutPixel(p); PREV <- p` (R95), for INDEX. -/
def State.commit (s : State) (p : Pixel) : Result :=
  if s.cnt < s.npix then .next ((s.outPixel p).setPrev p) else .fault .pastImage

/-- `CommitCached(p)`: `update(p); OutPixel(p); PREV <- p` (R95), for RGB, RGBA, DIFF and LUMA. -/
def State.commitCached (s : State) (p : Pixel) : Result := (s.update p).commit p

/-- Reads the tag and `n` trailing bytes and commits `p` with a cache write, or raises TruncatedStream when the trailing
bytes are not all there: the availability test precedes every effect of the chunk (R94, R181). -/
def State.trailingCommit (s : State) (n : Nat) (p : Pixel) : Result :=
  if (s.advance 1).avail n then ((s.advance 1).advance n).commitCached p
  else .next ((s.advance 1).raise .truncatedStream)

/-! ### Placing a chunk where the next step fetches it (for `withFetchWord`) -/

/-- A byte list with `bs` written from offset `a` on, zeros filling any gap before it. -/
def splice (l : List Byte) (a : Nat) (bs : List Byte) : List Byte :=
  l.take a ++ List.replicate (a - l.length) 0 ++ bs ++ l.drop (a + bs.length)

/-- The state with `bs` in DEC_IN at BPOS and a decode in progress that wants at least one more pixel, no command
pending. Where `CNT` is already below `NPIX` both stay; otherwise NPIX becomes the largest count, and CNT 0 if even that
would leave nothing wanted. -/
def State.placeChunk (s : State) (bs : List Byte) : State :=
  { s with
    decIn := splice s.decIn s.bpos bs
    mode := .dec
    phase := .body
    port := []
    npix := if s.cnt < s.npix then s.npix else BitVec.allOnes 64
    cnt := if s.cnt = BitVec.allOnes 64 then 0 else s.cnt }

end Sys2Proof.Machine
end

