-- ==== Sys2Proof/Machine/Commands.lean ====
section
/-! DEFINITION. The command port and hardware reset (spec 10_state.md R21, R24, 70_reset_and_hazards.md R175, R176). -/

namespace Sys2Proof.Machine

/-- Every register at its hardware-reset value (R24, R175); the spaces and the host's coming commands are not registers
and stay: "What the operation already wrote to its output space stays written" (R21). -/
def State.resetRegisters (s : State) : State :=
  { State.reset with
    decIn := s.decIn, decOut := s.decOut, encIn := s.encIn, encOut := s.encOut, port := s.port }

/-- `StreamStart(mode, N, hasalpha)` (R176). -/
def State.streamStart (s : State) (mode : Mode) (n : Count) (hasAlpha : Bool) : State :=
  { s with
    prev := startPixel
    cache := Vector.replicate 64 zeroPixel
    runLen := 0
    cnt := 0
    bpos := 0
    npix := n
    hasAlpha := hasAlpha
    mode := mode
    status := clearFlags
    phase := .body }

/-- `START_DEC(N)` (R21): the byte source and the output buffer are bound, and the stream starts; ignored while BUSY. -/
def State.startDec (s : State) (n : Count) (source : List Byte) : State :=
  if s.phase = .body then s
  else { s.streamStart .dec n false with decIn := source, decOut := Memory.empty }

/-- `START_ENC(N, CHANNELS)` (R21): ignored while BUSY; refused with BADPARAM when CHANNELS is not 3 or 4 (R154). -/
def State.startEnc (s : State) (n : Count) (channels : Nat) (samples : List Byte) : State :=
  if s.phase = .body then s
  else if channels = 3 ∨ channels = 4 then
    { s.streamStart .enc n (decide (channels = 4)) with encIn := samples, encOut := Memory.empty }
  else s.raise .badParam

/-- What an event at the port does to the machine, or nothing where the port is quiet and the PSE takes a step. -/
def State.command (s : State) : HostEvent → Option State
  | .quiet => none
  | .startDec n source => some (s.startDec n source)
  | .startEnc n channels samples => some (s.startEnc n channels samples)
  | .abort => some s.resetRegisters
  | .hardReset => some s.resetRegisters

end Sys2Proof.Machine
end

