-- ==== Sys2Proof/Machine/Chunks.lean ====
section
/-! DEFINITION. The meanings of the six operators as the decoder executes them (spec 41_decode.md R88 to R95). Each
begins with BPOS at its tag byte. The step alone tests MODE, PHASE and the loop condition (R85). -/

namespace Sys2Proof.Machine

/-- RGB (R88): the three samples with PREV's alpha. -/
def execRgb (r g b : Byte) (s : State) : Result := s.trailingCommit 3 ⟨r, g, b, s.prev.a⟩

/-- RGBA (R89): the four samples. -/
def execRgba (r g b a : Byte) (s : State) : Result := s.trailingCommit 4 ⟨r, g, b, a⟩

/-- INDEX (R90): the pixel of a cache slot, not written to the cache again. -/
def execIndex (idx : BitVec 6) (s : State) : Result := (s.advance 1).commit (s.lookup idx.toFin)

/-- DIFF (R91): PREV plus three small deltas. -/
def execDiff (fr fg fb : BitVec 2) (s : State) : Result := (s.advance 1).commitCached (diffPixel s.prev fr fg fb)

/-- LUMA (R92): PREV plus a green delta and two differences from it. -/
def execLuma (fgl : BitVec 6) (frg fbg : BitVec 4) (s : State) : Result := s.trailingCommit 1 (lumaPixel s.prev fgl frg fbg)

/-- RUN (R93): PREV repeated `min(s + 1, NPIX − CNT)` times, with no cache update and nothing carried over. -/
def execRun (n : BitVec 6) (s : State) : Result :=
  if 61 < n.toNat then .refused .noSuchChunk
  else if s.cnt < s.npix then
    .next ((s.advance 1).outPixels s.prev (min (runLength n) (s.npix.toNat - s.cnt.toNat)))
  else .fault .pastImage

end Sys2Proof.Machine
end

