-- ==== Sys2Proof/Machine/Dispatch.lean ====
section
/-! DEFINITION. One arm per constructor of `Instr`. -/

namespace Sys2Proof.Machine

def exec (i : Instr) (s : State) : Host.Outcome State Fault Refusal :=
  match i with
  | .rgb r g b => Sys2Proof.Machine.execRgb r g b s
  | .rgba r g b a => Sys2Proof.Machine.execRgba r g b a s
  | .index idx => Sys2Proof.Machine.execIndex idx s
  | .diff fr fg fb => Sys2Proof.Machine.execDiff fr fg fb s
  | .luma fgl frg fbg => Sys2Proof.Machine.execLuma fgl frg fbg s
  | .run n => Sys2Proof.Machine.execRun n s

end Sys2Proof.Machine
end

