-- ==== Sys2Proof/Machine/DecodeMachine.lean ====
section
/-! DEFINITION. The decode state machine around the operators: the step and the closing step (spec 41_decode.md R85, R86,
R99). -/

namespace Sys2Proof.Machine

/-- The end-marker check of the closing step (R99): on a match BPOS moves past the marker; otherwise TrailerMismatch is
raised and BPOS moves to `min(BPOS + 8, LEN)`. -/
def State.checkTrailer (s : State) : State :=
  if s.avail 8 && decide ((s.decIn.drop s.bpos).take 8 = endMarker) then s.advance 8
  else { s.raise .trailerMismatch with bpos := min (s.bpos + 8) s.decIn.length }

/-- The underfill report of the closing step (R99, R152). -/
def State.reportUnderfill (s : State) : State := if s.cnt < s.npix then s.raise .underfilledOutput else s

/-- `DecodeClose` (R99). -/
def State.decodeClose (s : State) : State := { s.reportUnderfill.checkTrailer with phase := .done }

/-- `DecodeStep` (R85), enabled when MODE is DEC and PHASE is BODY. -/
def State.decodeStep (s : State) : Result :=
  if decide (s.cnt = s.npix) || !s.avail 1 then .next s.decodeClose else exec s.fetchChunk s

end Sys2Proof.Machine
end

