-- ==== Sys2Proof/Machine/EncodeMachine.lean ====
section
/-! DEFINITION. The encode operator selector (spec 42_encode.md R110 to R125). -/

namespace Sys2Proof.Machine

/-- The bytes of one chunk appended to ENC_OUT (R63, R123). -/
def State.emit (s : State) (i : Instr) : State := s.outBytes (encode i)

/-- The RUN chunk for a pending run of `RUNLEN` pixels, stored value `RUNLEN − 1`, and `RUNLEN <- 0`; nothing where no run
is pending (R114, R124). -/
def State.flushRun (s : State) : State :=
  if s.runLen = 0 then s else { s.emit (.run (s.runLen - 1)) with runLen := 0 }

/-- The increment of RUNLEN, flushed at once when it reaches 62 (R112). -/
def State.countRun (s : State) : State :=
  if s.runLen + 1 = 62 then { s.emit (.run 61) with runLen := 0 } else { s with runLen := s.runLen + 1 }

/-- The first-pixel cache fix-up (R113): only at pixel position 0. -/
def State.firstPixelFixup (s : State) (curr : Pixel) : State := if s.cnt = 0 then s.update curr else s

/-- Run continuation, priority 1 (R112, R113). -/
def State.continueRun (s : State) (curr : Pixel) : State :=
  let t := s.countRun.firstPixelFixup curr
  { t with cnt := t.cnt + 1 }

/-- The choice among RGBA, DIFF, LUMA and RGB, priorities 4a to 4d (R117 to R120). -/
def literalChunk (hasAlpha : Bool) (prev curr : Pixel) : Instr :=
  let dr := sub8 curr.r prev.r
  let dg := sub8 curr.g prev.g
  let db := sub8 curr.b prev.b
  if hasAlpha && decide (curr.a ≠ prev.a) then .rgba curr.r curr.g curr.b curr.a
  else if inDiff dr && inDiff dg && inDiff db then .diff (biased 2 dr) (biased 2 dg) (biased 2 db)
  else if inLumaG dg && inLumaRB (sub8 dr dg) && inLumaRB (sub8 db dg) then
    .luma (biased 6 dg) (biased 4 (sub8 dr dg)) (biased 4 (sub8 db dg))
  else .rgb curr.r curr.g curr.b

/-- Index match, else cache update and a literal chunk: priorities 3 and 4 (R115, R116). The match is on the slot's old
value (R180 d). -/
def State.selectChunk (s : State) (curr : Pixel) : State :=
  if s.lookup (cacheIndex curr) = curr then s.emit (.index (BitVec.ofFin (cacheIndex curr)))
  else (s.update curr).emit (literalChunk s.hasAlpha s.prev curr)

/-- A pixel that differs from PREV: run flush, then its chunk, then `PREV <- curr` (R114 to R122). -/
def State.codePixel (s : State) (curr : Pixel) : State :=
  let t := (s.flushRun.selectChunk curr).setPrev curr
  { t with cnt := t.cnt + 1 }

/-- One input pixel (R110). -/
def State.encodePixel (s : State) (curr : Pixel) : State :=
  if curr = s.prev then s.continueRun curr else s.codePixel curr

/-- `EncodeClose`: the end flush and the end marker (R124, R125). -/
def State.encodeClose (s : State) : State := { s.flushRun.outBytes endMarker with phase := .done }

/-- `EncodeStep` (R110), enabled when MODE is ENC and PHASE is BODY. A pixel the host did not supply leaves no step
enabled: the PSE stays in BODY as it is (R36). -/
def State.encodeStep (s : State) : Result :=
  if s.cnt = s.npix then .next s.encodeClose
  else
    match s.inPixel with
    | some curr => .next (s.encodePixel curr)
    | none => .next s

end Sys2Proof.Machine
end

