-- ==== Sys2Proof/Machine/Sequencer.lean ====
section
/-! DEFINITION. What happens at one boundary: a command of the host, or the step that MODE and PHASE enable (spec
10_state.md R18, R19, R21, 60_exceptions.md R159). -/

namespace Sys2Proof.Machine

/-- The step rule that PHASE and MODE enable. In IDLE and DONE no step is enabled and "all state is retained" (R165). -/
def State.runPse (s : State) : Result :=
  match s.phase, s.mode with
  | .body, .dec => s.decodeStep
  | .body, .enc => s.encodeStep
  | .idle, _ => .next s
  | .done, _ => .next s

/-- The next event at the port is taken off it; commands take effect between steps (R159, R180). -/
def State.boundary (s : State) : Result :=
  match s.port with
  | [] => s.runPse
  | e :: rest =>
    match ({ s with port := rest } : State).command e with
    | some t => .next t
    | none => ({ s with port := rest } : State).runPse

end Sys2Proof.Machine
end

