-- ==== Sys2Proof/Machine/Step.lean ====
section
/-! DEFINITION. One step of the machine, and a state whose next step runs a given chunk. -/

namespace Sys2Proof.Machine

/-- One step: what the port brings, or else one atomic step of the PSE (spec 70_reset_and_hazards.md R180). -/
def step (s : State) : Host.Outcome State Fault Refusal := s.boundary

/-- The state with the chunk of a table word placed where the next step fetches. -/
def State.withFetchWord (s : State) (nbits w : Nat) : State := s.placeChunk (tableWordBytes nbits w)

end Sys2Proof.Machine
end

