-- ==== Sys2Proof/Machine/Assembler.lean ====
section
/-! DEFINITION. The textual forms of chunks with their unbiased operands (spec 30_encoding.md R64, decision D21). They are
used in the spec's examples and nowhere change behaviour. -/

namespace Sys2Proof.Machine

/-- A line of R64's table: the operands are lengths and signed deltas, not stored fields. `finish` is the directive `END`. -/
inductive AsmLine where
  | rgb (r g b : Int)
  | rgba (r g b a : Int)
  | index (idx : Int)
  | diff (dr dg db : Int)
  | luma (dg drDg dbDg : Int)
  | run (n : Int)
  | finish
  deriving DecidableEq, Repr

/-- The operand lies in the range the table gives it. -/
def within (lo hi v : Int) : Bool := decide (lo ≤ v) && decide (v ≤ hi)

/-- The bytes of a line (R64), or none where an operand is out of its range. -/
def AsmLine.bytes : AsmLine → Option (List Byte)
  | .rgb r g b =>
    if within 0 255 r && within 0 255 g && within 0 255 b then
      some [0xFE, BitVec.ofInt 8 r, BitVec.ofInt 8 g, BitVec.ofInt 8 b] else none
  | .rgba r g b a =>
    if within 0 255 r && within 0 255 g && within 0 255 b && within 0 255 a then
      some [0xFF, BitVec.ofInt 8 r, BitVec.ofInt 8 g, BitVec.ofInt 8 b, BitVec.ofInt 8 a] else none
  | .index idx => if within 0 63 idx then some [BitVec.ofInt 8 idx] else none
  | .diff dr dg db =>
    if within (-2) 1 dr && within (-2) 1 dg && within (-2) 1 db then
      some [BitVec.ofInt 8 (0x40 + 16 * (dr + 2) + 4 * (dg + 2) + (db + 2))] else none
  | .luma dg drDg dbDg =>
    if within (-32) 31 dg && within (-8) 7 drDg && within (-8) 7 dbDg then
      some [BitVec.ofInt 8 (0x80 + (dg + 32)), BitVec.ofInt 8 (16 * (drDg + 8) + (dbDg + 8))] else none
  | .run n => if within 1 62 n then some [BitVec.ofInt 8 (0xC0 + (n - 1))] else none
  | .finish => some endMarker

/-- The bytes of a program, line after line. -/
def assemble : List AsmLine → Option (List Byte)
  | [] => some []
  | l :: rest => do
    let bs ← l.bytes
    let more ← assemble rest
    return bs ++ more

end Sys2Proof.Machine
end

