-- ==== Sys2Proof/Machine/Header.lean ====
section
/-! DEFINITION. The Header Codec, the collaborator that gives the PSE its START arguments (spec 43_container_framing.md
R140 to R143). The PSE never sees a header byte. -/

namespace Sys2Proof.Machine

/-- The fields of the 14-byte header after the magic (R140). -/
structure Header where
  width : BitVec 32
  height : BitVec 32
  channels : Byte
  colorspace : Byte
  deriving DecidableEq, Repr

/-- The errors of `readHeader`, both of the kind HeaderMalformed (R142). -/
inductive HeaderError where
  | badMagic
  | shortRead
  deriving DecidableEq, Repr

/-- The ASCII characters `q`, `o`, `i`, `f` (R140; their codes are the spec's own general knowledge, G1; PRESUMED, log entry 18). -/
def headerMagic : List Byte := [0x71, 0x6F, 0x69, 0x66]

/-- A 32-bit value as four bytes, most significant first (R37, R140). -/
def wordToBytes (w : BitVec 32) : List Byte :=
  [w.extractLsb' 24 8, w.extractLsb' 16 8, w.extractLsb' 8 8, w.extractLsb' 0 8]

/-- `writeHeader` (R141). -/
def writeHeader (h : Header) : List Byte :=
  headerMagic ++ wordToBytes h.width ++ wordToBytes h.height ++ [h.channels, h.colorspace]

/-- `readHeader` (R142): 14 bytes, the magic checked, the channels and colorspace bytes not validated. -/
def readHeader (file : List Byte) : Except HeaderError Header :=
  match file with
  | m0 :: m1 :: m2 :: m3 :: w0 :: w1 :: w2 :: w3 :: h0 :: h1 :: h2 :: h3 :: c :: k :: _ =>
    if [m0, m1, m2, m3] = headerMagic then .ok ⟨w0 ++ w1 ++ w2 ++ w3, h0 ++ h1 ++ h2 ++ h3, c, k⟩
    else .error .badMagic
  | _ => .error .shortRead

/-- `N = width × height` as a 64-bit product, which cannot overflow (R143). -/
def pixelCount (width height : BitVec 32) : Count := width.setWidth 64 * height.setWidth 64

end Sys2Proof.Machine
end

