-- ==== Sys2Proof/Machine/HostSequence.lean ====
section
/-! DEFINITION. What the host does around one operation (spec 43_container_framing.md R145, 60_exceptions.md R155 to R157,
R163): the command it issues or the condition that stops it before the PSE starts, and what it reads at DONE. -/

namespace Sys2Proof.Machine

/-- Decode of a file, steps 1 to 3 of R145: no file, a malformed header or an output buffer of 4 × N bytes that cannot be
reserved (`reserved` false) stops the host before any START; otherwise it issues START_DEC with DEC_IN the bytes after the
header. -/
def hostDecode (file : Option (List Byte)) (reserved : Bool) : Except Condition HostEvent :=
  match file with
  | none => .error .fileNotFound
  | some f =>
    match readHeader f with
    | .error _ => .error .headerMalformed
    | .ok h =>
      if reserved then .ok (.startDec (pixelCount h.width h.height) (f.drop 14)) else .error .allocationFailure

/-- Encode of an image, steps 1 and 2 of R145: the header bytes and the START_ENC command, or AllocationFailure.
`colorspace` is the host parameter COLORSPACE (R141, U12). `channels` is 3 or 4 (R141); DESIGN CHOICE (log entry 19): with
another byte, for which the spec names no act of the host, that byte is written and START_ENC is issued, and the PSE refuses
it (R154). -/
def hostEncode (width height : BitVec 32) (channels : Byte) (colorspace : Bool) (samples : List Byte) (reserved : Bool) :
    Except Condition (List Byte × HostEvent) :=
  if reserved then
    .ok (writeHeader ⟨width, height, channels, if colorspace then 1 else 0⟩,
      .startEnc (pixelCount width height) channels.toNat samples)
  else .error .allocationFailure

/-- Pixel number `i` of DEC_OUT, where all its four bytes have been written (R34). -/
def Memory.readPixel (m : Memory) (i : Nat) : Option Pixel :=
  match m.readBytes (4 * i) 4 with
  | some [r, g, b, a] => some ⟨r, g, b, a⟩
  | _ => none

/-- The result of a decode: pixels 0 .. CNT − 1 (R145 step 5, R163). -/
def State.decodedPixels (s : State) : Option (List Pixel) := (List.range s.cnt.toNat).mapM s.decOut.readPixel

/-- The result of an encode: ENC_OUT bytes 0 .. BPOS − 1 (R127). -/
def State.encodedBytes (s : State) : Option (List Byte) := s.encOut.readBytes 0 s.bpos

/-- The file of an encode: the 14 header bytes, then ENC_OUT (R145 step 4). -/
def State.encodedFile (s : State) (header : List Byte) : Option (List Byte) := s.encodedBytes.map (header ++ ·)

end Sys2Proof.Machine
end

