-- ==== Sys2Proof/Safety.lean ====
section
/-! DEFINITION. The terms claims are stated in: the invariant of the machine, what a step changes and leaves, and whole
operations (spec 41_decode.md R97, 42_encode.md R126). -/

namespace Sys2Proof.Machine

/-! ### The invariant -/

/-- Every slot holds the zero pixel or a pixel that hashes to it (40_cache_and_delta.md R74 (a)). -/
def CacheInv (s : State) : Prop := ∀ i : Fin 64, s.lookup i = zeroPixel ∨ cacheIndex (s.lookup i) = i

/-- The registers, flags and output spaces of a state a run can be in. -/
structure PseInv (s : State) : Prop where
  /-- Both output spaces are in their canonical form. -/
  canonical : s.decOut.wf = true ∧ s.encOut.wf = true
  /-- R74 (a). -/
  cache : CacheInv s
  /-- CNT "never exceeds NPIX" (R14). -/
  count : s.cnt ≤ s.npix
  /-- RUNLEN is in 0..61 between steps (R16). -/
  pending : s.runLen.toNat ≤ 61
  /-- The decoder uses neither RUNLEN nor HASALPHA (R16, R17, R24). -/
  decoderUnused : s.mode = .dec → s.runLen = 0 ∧ s.hasAlpha = false
  /-- The decode cursor stays within the byte source (R87). -/
  cursor : s.mode = .dec → s.bpos ≤ s.decIn.length
  /-- At 3 channels alpha is always 255 (R117). -/
  opaqueAlpha : s.mode = .enc → s.hasAlpha = false → s.prev.a = 255
  /-- In IDLE every register is at its reset value, but for BADPARAM (R19, R21, R24). -/
  idle : s.phase = .idle →
    s.cache = State.reset.cache ∧ s.prev = startPixel ∧ s.bpos = 0 ∧ s.cnt = 0 ∧ s.npix = 0 ∧ s.runLen = 0 ∧
      s.hasAlpha = false ∧ s.mode = .dec
  /-- UNDERFILL and TRAILER_BAD are set by the closing step of a decode alone (R99, R158). -/
  closingFlags : ¬(s.phase = .done ∧ s.mode = .dec) → s.status.underfill = false ∧ s.status.trailerBad = false
  /-- TRUNC is set in decode alone, with the source consumed and pixels missing (R94, R151). -/
  truncated : s.status.trunc = true →
    s.mode = .dec ∧ s.phase ≠ .idle ∧ s.bpos = s.decIn.length ∧ s.cnt < s.npix
  /-- After a decode UNDERFILL says that pixels are missing (R97), and then the marker is missing too (R160). -/
  underfilled : s.phase = .done → s.mode = .dec →
    (s.status.underfill = true ↔ s.cnt < s.npix) ∧ (s.status.underfill = true → s.status.trailerBad = true)
  /-- An encode that is DONE has consumed its input and flushed its run (R111, R124). -/
  encodeDone : s.phase = .done → s.mode = .enc → s.cnt = s.npix ∧ s.runLen = 0
  /-- DEC_OUT holds exactly the bytes of pixels 0 .. CNT − 1 (R34, R47). -/
  decoded : s.mode = .dec → s.phase ≠ .idle → ∀ a, (s.decOut.read a).isSome = true ↔ a < 4 * s.cnt.toNat
  /-- ENC_OUT holds exactly the bytes 0 .. BPOS − 1 (R35, R127). -/
  encoded : s.mode = .enc → s.phase ≠ .idle → ∀ a, (s.encOut.read a).isSome = true ↔ a < s.bpos

/-! ### What a step changes and leaves -/

/-- From `s` to `t` one pixel `p` is committed by a chunk of `n` bytes (R95): it is in DEC_OUT at pixel number CNT and no
other byte of DEC_OUT differs, PREV is `p`, CNT and BPOS have moved; every other register and space but the cache is as
it was. -/
structure Commits (s t : State) (p : Pixel) (n : Nat) : Prop where
  cursor : t.bpos = s.bpos + n
  count : t.cnt.toNat = s.cnt.toNat + 1
  previous : t.prev = p
  stored : t.decOut.readBytes (pixelAddr s.cnt) 4 = some (pixelBytes p)
  keptBytes : ∀ a, a < pixelAddr s.cnt ∨ pixelAddr s.cnt + 4 ≤ a → t.decOut.read a = s.decOut.read a
  rest : t = { s with bpos := t.bpos, cnt := t.cnt, prev := t.prev, decOut := t.decOut, cache := t.cache }

/-- The cache of `t` is that of `s` with `p` in its slot (R72). -/
def CachedIn (s t : State) (p : Pixel) : Prop :=
  ∀ i : Fin 64, t.lookup i = if i = cacheIndex p then p else s.lookup i

/-- From `s` to `t` the bytes `bs` are appended to ENC_OUT (R35) and no other byte of it differs. -/
structure Appends (s t : State) (bs : List Byte) : Prop where
  cursor : t.bpos = s.bpos + bs.length
  stored : t.encOut.readBytes s.bpos bs.length = some bs
  keptBytes : ∀ a, a < s.bpos ∨ s.bpos + bs.length ≤ a → t.encOut.read a = s.encOut.read a

/-- No command comes at this boundary: the port is empty, or its next entry is quiet (log entry 1). The step of the PSE then
starts from the state with that entry taken off, whose port is `s.port.tail` in both cases. -/
def NoCommand (s : State) : Prop := s.port = [] ∨ ∃ more, s.port = .quiet :: more

/-- No command comes at this boundary, and the encode step is enabled with `curr` its input pixel (R110). -/
def EncodesNext (s : State) (curr : Pixel) : Prop :=
  NoCommand s ∧ s.phase = .body ∧ s.mode = .enc ∧ s.cnt ≠ s.npix ∧ s.inPixel = some curr

/-- The run-flush byte that comes before a chunk, where a run is pending (R114, R123). -/
def flushBytes (s : State) : List Byte :=
  if s.runLen = 0 then [] else [0xC0 ||| (s.runLen - 1).setWidth 8]

/-- What every encode step that codes a differing pixel does beside the bytes of its chunk (R114, R122): the run is
flushed, PREV is the pixel, CNT has moved, and nothing but ENC_OUT, BPOS and the cache differs otherwise; a quiet entry is
off the port. -/
def CodesPixel (s t : State) (curr : Pixel) : Prop :=
  t = { s with
    port := s.port.tail, runLen := 0, prev := curr, cnt := t.cnt, bpos := t.bpos, encOut := t.encOut, cache := t.cache } ∧
    t.cnt.toNat = s.cnt.toNat + 1

/-- The step from `s` to `t` is the PSE's own: no command came at the boundary. -/
def PseStep (s t : State) : Prop := NoCommand s ∧ step s = .next t

/-! ### Whole operations -/

/-- The `i`-th input pixel of `c` channels, as the encoder is to read it: alpha 255 at 3 channels (R36). -/
def inputPixel (c : Nat) (samples : List Byte) (i : Nat) : Option Pixel :=
  match c, samples.drop (c * i) with
  | 3, r :: g :: b :: _ => some ⟨r, g, b, 255⟩
  | 4, r :: g :: b :: a :: _ => some ⟨r, g, b, a⟩
  | _, _ => none

/-- All `n` input pixels, where the host supplied every sample. -/
def inputPixels (c : Nat) (samples : List Byte) (n : Count) : Option (List Pixel) :=
  (List.range n.toNat).mapM (inputPixel c samples)

/-- The number of pixels a chunk asks for: a RUN's length (R59), one for every other operator. -/
def pixelsOf : Instr → Nat
  | .rgb _ _ _ => 1
  | .rgba _ _ _ _ => 1
  | .index _ => 1
  | .diff _ _ _ => 1
  | .luma _ _ _ => 1
  | .run n => runLength n

/-- `decode(B, N)` (R97): START_DEC from reset, then enough steps for every chunk and the closing step (R87). DONE is kept
by any further step. -/
def wholeDecode (bytes : List Byte) (n : Count) : Host.Outcome State Fault Refusal :=
  Host.Core.run core (bytes.length + 2) ({ State.reset with port := [.startDec n bytes] } : State)

/-- `encode(S, N, C)` (R126): START_ENC from reset, then `N + 1` steps (R182). -/
def wholeEncode (samples : List Byte) (n : Count) (c : Nat) : Host.Outcome State Fault Refusal :=
  Host.Core.run core (n.toNat + 2) ({ State.reset with port := [.startEnc n c samples] } : State)

/-- The scan of R80 after a first pixel that fired the fix-up: true where (0,0,0,255) comes back after a different pixel
before any other pixel that hashes to its slot. `last` is the pixel before. -/
def fixupExposed (last : Pixel) : List Pixel → Bool
  | [] => false
  | p :: rest =>
    if p = startPixel then (if last = startPixel then fixupExposed p rest else true)
    else if cacheIndex p = cacheIndex startPixel then false
    else fixupExposed p rest

/-- The criterion of R80: the first-pixel fix-up did not fire, or it did and is not exposed. -/
def roundTrips : List Pixel → Bool
  | [] => true
  | p :: rest => if p = startPixel then !fixupExposed p rest else true

end Sys2Proof.Machine
end

