-- ==== Sys2Proof/Certificates/Slice0/Obligations.lean ====
section
/-! DEFINITION. The statements for the provers. Each docstring names the rule of the spec it formalises. -/

open Sys2Proof Sys2Proof.Machine

/-! ### Encodings -/

/-- R53 to R59 and decision D26: reading the encoded bytes of any well-formed chunk, whatever follows them, gives the
chunk back and leaves what follows. -/
def Obligations.DecodeOfEncodedChunk : Prop :=
  ∀ (i : Instr) (rest : List Byte), i.wellFormed = true → decode (encode i ++ rest) = .ok (i, rest)

/-- The other direction: whatever the decoder reads is well-formed, and its bytes are exactly those it was read from, so
every byte sequence has one meaning (R60, R61). -/
def Obligations.EncodeOfDecodedChunk : Prop :=
  ∀ (bs : List Byte) (i : Instr) (rest : List Byte), decode bs = .ok (i, rest) →
    i.wellFormed = true ∧ encode i ++ rest = bs

/-- R60, with the field extractions of R53 to R56, R58 and R59: the operator and operands of every tag. -/
def Obligations.EveryTagSelectsItsOperator : Prop :=
  ∀ t b1 b2 b3 b4 : Byte,
    (t.toNat ≤ 0x3F → ∃ idx : BitVec 6, chunkOf t b1 b2 b3 b4 = .index idx ∧ idx.toNat = t.toNat &&& 0x3F) ∧
    (0x40 ≤ t.toNat → t.toNat ≤ 0x7F → ∃ fr fg fb : BitVec 2, chunkOf t b1 b2 b3 b4 = .diff fr fg fb ∧
      fr.toNat = (t.toNat >>> 4) &&& 3 ∧ fg.toNat = (t.toNat >>> 2) &&& 3 ∧ fb.toNat = t.toNat &&& 3) ∧
    (0x80 ≤ t.toNat → t.toNat ≤ 0xBF → ∃ (fgl : BitVec 6) (frg fbg : BitVec 4),
      chunkOf t b1 b2 b3 b4 = .luma fgl frg fbg ∧
      fgl.toNat = t.toNat &&& 0x3F ∧ frg.toNat = (b1.toNat >>> 4) &&& 0xF ∧ fbg.toNat = b1.toNat &&& 0xF) ∧
    (0xC0 ≤ t.toNat → t.toNat ≤ 0xFD → ∃ n : BitVec 6, chunkOf t b1 b2 b3 b4 = .run n ∧ n.toNat = t.toNat &&& 0x3F) ∧
    (t = 0xFE → chunkOf t b1 b2 b3 b4 = .rgb b1 b2 b3) ∧
    (t = 0xFF → chunkOf t b1 b2 b3 b4 = .rgba b1 b2 b3 b4)

/-- R61: a byte sequence fails to begin with a chunk only where it is empty or cut short, and the decoder names which. -/
def Obligations.DecodeFailsOnlyWhenCut : Prop :=
  ∀ (bs : List Byte) (e : DecodeError), decode bs = .error e ↔
    (bs = [] ∧ e = .noTag) ∨
    ∃ t rest, bs = t :: rest ∧
      ((t = 0xFE ∧ rest.length < 3 ∧ e = .cutRgb) ∨
       (t = 0xFF ∧ rest.length < 4 ∧ e = .cutRgba) ∨
       (0x80 ≤ t.toNat ∧ t.toNat ≤ 0xBF ∧ rest = [] ∧ e = .cutLuma))

/-- Words of every operator written out from the layouts of R53 to R59. -/
def Obligations.SpecWordsDecode : Prop :=
  decode [0b11111110, 0x0A, 0x14, 0x1E] = .ok (.rgb 10 20 30, []) ∧
  decode [0b11111111, 0x01, 0x02, 0x03, 0x80] = .ok (.rgba 1 2 3 128, []) ∧
  decode [0b00001001] = .ok (.index 9, []) ∧
  decode [0b01110010] = .ok (.diff 3 0 2, []) ∧
  decode [0b10100010, 0b11110000] = .ok (.luma 34 15 0, []) ∧
  decode [0b11000010] = .ok (.run 2, [])

/-! ### Hash and delta unit -/

/-- The hash is the stated sum modulo 64 (R70), and the low six bits of each channel are enough: the spec's own inference in
R70, "[derived: from (x mod 2^k) mod 64 = x mod 64 for k ≥ 6]". -/
def Obligations.HashNeedsOnlyLowSixBits : Prop :=
  ∀ p q : Pixel,
    (cacheIndex p).val = (p.r.toNat * 3 + p.g.toNat * 5 + p.b.toNat * 7 + p.a.toNat * 11) % 64 ∧
    (p.r.setWidth 6 = q.r.setWidth 6 → p.g.setWidth 6 = q.g.setWidth 6 → p.b.setWidth 6 = q.b.setWidth 6 →
      p.a.setWidth 6 = q.a.setWidth 6 → cacheIndex p = cacheIndex q)

/-- R76: `add8(x, d) = (x + d) mod 256`, and `add8(add8(x, d1), d2) = add8(x, d1 + d2)`. -/
def Obligations.DeltaAddsCompose : Prop :=
  ∀ (x : Byte) (d1 d2 : Int),
    ((add8 x d1).toNat : Int) = (x.toNat + d1) % 256 ∧ add8 (add8 x d1) d2 = add8 x (d1 + d2)

/-- R77: `sub8(x, y)` is "the unique byte d with `add8(y, d) = x`". -/
def Obligations.SubtractIsTheDelta : Prop :=
  ∀ x y d : Byte, add8 y d.toNat = x ↔ d = sub8 x y

/-- R77: each range test is true exactly for the bytes whose signed reading lies in its range. -/
def Obligations.RangeTestsReadSigned : Prop :=
  ∀ d : Byte,
    (inDiff d = true ↔ -2 ≤ d.toInt ∧ d.toInt ≤ 1) ∧
    (inLumaG d = true ↔ -32 ≤ d.toInt ∧ d.toInt ≤ 31) ∧
    (inLumaRB d = true ↔ -8 ≤ d.toInt ∧ d.toInt ≤ 7)

/-- The spec's own inference in R78, "[derived: from rules R76, R77 and 30_encoding.md rules R56 to R58]": where the range
tests hold, the stored DIFF or LUMA fields applied to the old pixel give the new pixel's colour
channels. -/
def Obligations.StoredDeltasDecodeBack : Prop :=
  ∀ p q : Pixel,
    (inDiff (sub8 p.r q.r) = true → inDiff (sub8 p.g q.g) = true → inDiff (sub8 p.b q.b) = true →
      diffPixel q (biased 2 (sub8 p.r q.r)) (biased 2 (sub8 p.g q.g)) (biased 2 (sub8 p.b q.b)) =
        ⟨p.r, p.g, p.b, q.a⟩) ∧
    (inLumaG (sub8 p.g q.g) = true → inLumaRB (sub8 (sub8 p.r q.r) (sub8 p.g q.g)) = true →
      inLumaRB (sub8 (sub8 p.b q.b) (sub8 p.g q.g)) = true →
      lumaPixel q (biased 6 (sub8 p.g q.g)) (biased 4 (sub8 (sub8 p.r q.r) (sub8 p.g q.g)))
        (biased 4 (sub8 (sub8 p.b q.b) (sub8 p.g q.g))) = ⟨p.r, p.g, p.b, q.a⟩)

/-! ### The decode step -/

/-- R85: with no command at the boundary, in BODY of a decode that wants more pixels, where the bytes at BPOS decode to a
chunk, the step is that chunk's meaning. A quiet entry at the port is taken off first. -/
def Obligations.StepRunsDecodedChunk : Prop :=
  ∀ (s : State) (i : Instr) (rest : List Byte),
    s.phase = .body → s.mode = .dec → s.cnt ≠ s.npix → decode (s.decIn.drop s.bpos) = .ok (i, rest) →
    (s.port = [] → step s = exec i s) ∧
    (∀ more, s.port = .quiet :: more → step s = exec i { s with port := more })

/-- R88: RGB with all its bytes there commits its samples with PREV's alpha and writes the cache; with fewer than 3 bytes
after the tag it raises TruncatedStream, and nothing else happens. -/
def Obligations.RgbCommitsSamples : Prop :=
  ∀ (r g b : Byte) (s : State),
    (s.bpos + 4 ≤ s.decIn.length → s.cnt < s.npix →
      ∃ t, exec (.rgb r g b) s = .next t ∧ Commits s t ⟨r, g, b, s.prev.a⟩ 4 ∧ CachedIn s t ⟨r, g, b, s.prev.a⟩) ∧
    (s.decIn.length < s.bpos + 4 →
      exec (.rgb r g b) s = .next { s with status := { s.status with trunc := true }, bpos := s.decIn.length })

/-- R89: RGBA with all its bytes there commits its four samples and writes the cache; with fewer than 4 bytes after the
tag it raises TruncatedStream, and nothing else happens. -/
def Obligations.RgbaCommitsSamples : Prop :=
  ∀ (r g b a : Byte) (s : State),
    (s.bpos + 5 ≤ s.decIn.length → s.cnt < s.npix →
      ∃ t, exec (.rgba r g b a) s = .next t ∧ Commits s t ⟨r, g, b, a⟩ 5 ∧ CachedIn s t ⟨r, g, b, a⟩) ∧
    (s.decIn.length < s.bpos + 5 →
      exec (.rgba r g b a) s = .next { s with status := { s.status with trunc := true }, bpos := s.decIn.length })

/-- R90: INDEX commits the pixel of its slot and writes no cache slot. -/
def Obligations.IndexCommitsSlot : Prop :=
  ∀ (idx : BitVec 6) (s : State), s.cnt < s.npix →
    ∃ t, exec (.index idx) s = .next t ∧ Commits s t (s.lookup idx.toFin) 1 ∧ t.cache = s.cache

/-- R91: DIFF commits PREV with each field less 2 added to its channel, modulo 256, alpha unchanged, and writes the
cache. -/
def Obligations.DiffCommitsDeltas : Prop :=
  ∀ (fr fg fb : BitVec 2) (s : State), s.cnt < s.npix →
    ∃ t p, exec (.diff fr fg fb) s = .next t ∧ Commits s t p 1 ∧ CachedIn s t p ∧
      (p.r.toNat : Int) = (s.prev.r.toNat + ((fr.toNat : Int) - 2)) % 256 ∧
      (p.g.toNat : Int) = (s.prev.g.toNat + ((fg.toNat : Int) - 2)) % 256 ∧
      (p.b.toNat : Int) = (s.prev.b.toNat + ((fb.toNat : Int) - 2)) % 256 ∧ p.a = s.prev.a

/-- R92: LUMA with its second byte there commits PREV with the green delta (field less 32) on green and that delta plus
each difference (field less 8) on red and blue, modulo 256, alpha unchanged, and writes the cache; where the tag is the
last byte of the source it raises TruncatedStream, and nothing else happens. -/
def Obligations.LumaCommitsDeltas : Prop :=
  ∀ (fgl : BitVec 6) (frg fbg : BitVec 4) (s : State),
    (s.bpos + 2 ≤ s.decIn.length → s.cnt < s.npix →
      ∃ t p, exec (.luma fgl frg fbg) s = .next t ∧ Commits s t p 2 ∧ CachedIn s t p ∧
        (p.r.toNat : Int) = (s.prev.r.toNat + (((frg.toNat : Int) - 8) + ((fgl.toNat : Int) - 32))) % 256 ∧
        (p.g.toNat : Int) = (s.prev.g.toNat + ((fgl.toNat : Int) - 32)) % 256 ∧
        (p.b.toNat : Int) = (s.prev.b.toNat + (((fbg.toNat : Int) - 8) + ((fgl.toNat : Int) - 32))) % 256 ∧
        p.a = s.prev.a) ∧
    (s.decIn.length < s.bpos + 2 →
      exec (.luma fgl frg fbg) s = .next { s with status := { s.status with trunc := true }, bpos := s.decIn.length })

/-- R93: RUN outputs PREV `min(n + 1, NPIX − CNT)` times; "PREV, CACHE and STATUS are unchanged by RUN; only CNT (by k),
BPOS (by 1) and DEC_OUT change". -/
def Obligations.RunRepeatsPrev : Prop :=
  ∀ (n : BitVec 6) (s : State), n.toNat ≤ 61 → s.cnt < s.npix →
    ∃ t k, exec (.run n) s = .next t ∧ k = min (n.toNat + 1) (s.npix.toNat - s.cnt.toNat) ∧ 1 ≤ k ∧
      t.cnt.toNat = s.cnt.toNat + k ∧ t.bpos = s.bpos + 1 ∧
      (∀ j, j < k → t.decOut.readBytes (pixelAddr s.cnt + 4 * j) 4 = some (pixelBytes s.prev)) ∧
      (∀ a, a < pixelAddr s.cnt ∨ pixelAddr s.cnt + 4 * k ≤ a → t.decOut.read a = s.decOut.read a) ∧
      t = { s with bpos := t.bpos, cnt := t.cnt, decOut := t.decOut }

/-- R94: with no command at the boundary the step on a chunk cut off by the end of DEC_IN sets TRUNC, consumes the bytes that
were there and leaves CNT, PREV, CACHE and DEC_OUT alone; the next step, with no command again, is the closing step, which
sets UNDERFILL and TRAILER_BAD. A quiet entry leaves the port (log entry 1). -/
def Obligations.StepOnCutChunkTruncates : Prop :=
  ∀ (s cut : State) (e : DecodeError),
    NoCommand s → s.phase = .body → s.mode = .dec → s.cnt < s.npix → s.bpos < s.decIn.length →
    decode (s.decIn.drop s.bpos) = .error e →
    cut = { s with port := s.port.tail, status := { s.status with trunc := true }, bpos := s.decIn.length } →
    step s = .next cut ∧
    (NoCommand cut → step cut = .next { cut with
      port := cut.port.tail
      phase := .done
      status := { cut.status with underfill := true, trailerBad := true } })

/-- R99: once `CNT == NPIX` or the source is exhausted the step, with no command at the boundary, is the closing step, with
exactly these effects; a quiet entry leaves the port (log entry 1). -/
def Obligations.ClosingStepReports : Prop :=
  ∀ (s : State) (found : Bool), NoCommand s → s.phase = .body → s.mode = .dec →
    (s.cnt = s.npix ∨ s.decIn.length ≤ s.bpos) →
    (found = true ↔ s.bpos + 8 ≤ s.decIn.length ∧ (s.decIn.drop s.bpos).take 8 = [0, 0, 0, 0, 0, 0, 0, 1]) →
    step s = .next { s with
      port := s.port.tail
      phase := .done
      bpos := if found then s.bpos + 8 else min (s.bpos + 8) s.decIn.length
      status := { s.status with
        underfill := s.status.underfill || decide (s.cnt < s.npix)
        trailerBad := s.status.trailerBad || !found } }

/-- The model's two stops, neither of which a run reaches (log entry 4): a whole chunk run where `CNT` is not below `NPIX`
faults, since DEC_OUT has no such pixel (R30), and a RUN with stored value 62 or 63 is refused, since "Payloads 62 and 63
do not exist for RUN" (R59). -/
def Obligations.StopsOutsideTheSpec : Prop :=
  ∀ s : State,
    (∀ n : BitVec 6, 61 < n.toNat → exec (.run n) s = .refused .noSuchChunk) ∧
    (s.npix ≤ s.cnt → ∀ i : Instr, i.wellFormed = true → s.bpos + i.length ≤ s.decIn.length →
      exec i s = .fault .pastImage)

/-! ### The encode step

Each holds at an empty port and at a quiet entry, which the step takes off (log entry 1). -/

/-- R36: the input pixel at position CNT, with alpha 255 at 3 channels. -/
def Obligations.InPixelReadsSamples : Prop :=
  ∀ (s : State) (r g b a : Byte) (more : List Byte), s.cnt < s.npix →
    (s.hasAlpha = true → s.encIn.drop (4 * s.cnt.toNat) = r :: g :: b :: a :: more → s.inPixel = some ⟨r, g, b, a⟩) ∧
    (s.hasAlpha = false → s.encIn.drop (3 * s.cnt.toNat) = r :: g :: b :: more → s.inPixel = some ⟨r, g, b, 255⟩)

/-- R112, R113: a pixel equal to PREV extends the run; the 62nd emits `FD`; the cache is written at pixel position 0 only. -/
def Obligations.EqualPixelContinuesRun : Prop :=
  ∀ (s : State) (curr : Pixel), EncodesNext s curr → curr = s.prev →
    ∃ t, step s = .next t ∧ t.cnt.toNat = s.cnt.toNat + 1 ∧
      (if s.runLen + 1 = 62 then Appends s t [0xFD] ∧ t.runLen = 0
        else Appends s t [] ∧ t.runLen = s.runLen + 1) ∧
      (if s.cnt = 0 then CachedIn s t curr else t.cache = s.cache) ∧
      t = { s with
        port := s.port.tail, cnt := t.cnt, runLen := t.runLen, cache := t.cache, bpos := t.bpos, encOut := t.encOut }

/-- R114, R115, R122: a differing pixel that its slot holds is coded as INDEX after the run flush, with no cache write. -/
def Obligations.HeldPixelCodesIndex : Prop :=
  ∀ (s : State) (curr : Pixel), EncodesNext s curr → curr ≠ s.prev → s.lookup (cacheIndex curr) = curr →
    ∃ t, step s = .next t ∧ CodesPixel s t curr ∧ t.cache = s.cache ∧
      Appends s t (flushBytes s ++ [BitVec.ofNat 8 (cacheIndex curr).val])

/-- R116, R117: a differing pixel its slot does not hold, with its alpha changed at 4 channels, is coded as RGBA. -/
def Obligations.ChangedAlphaCodesRgba : Prop :=
  ∀ (s : State) (curr : Pixel), EncodesNext s curr → curr ≠ s.prev → s.lookup (cacheIndex curr) ≠ curr →
    s.hasAlpha = true → curr.a ≠ s.prev.a →
    ∃ t, step s = .next t ∧ CodesPixel s t curr ∧ CachedIn s t curr ∧
      Appends s t (flushBytes s ++ [0xFF, curr.r, curr.g, curr.b, curr.a])

/-- R116, R118: alpha not changed and all three deltas in −2..1: the one DIFF byte. -/
def Obligations.SmallDeltaCodesDiff : Prop :=
  ∀ (s : State) (curr : Pixel) (dr dg db : Byte),
    EncodesNext s curr → curr ≠ s.prev → s.lookup (cacheIndex curr) ≠ curr →
    (s.hasAlpha = false ∨ curr.a = s.prev.a) →
    dr = curr.r - s.prev.r → dg = curr.g - s.prev.g → db = curr.b - s.prev.b →
    dr + 2 ≤ 3 → dg + 2 ≤ 3 → db + 2 ≤ 3 →
    ∃ t, step s = .next t ∧ CodesPixel s t curr ∧ CachedIn s t curr ∧
      Appends s t (flushBytes s ++ [0x40 ||| (dr + 2) <<< 4 ||| (dg + 2) <<< 2 ||| (db + 2)])

/-- R116, R119: not DIFF, and the green delta and both differences from it in range: the two LUMA bytes. -/
def Obligations.MediumDeltaCodesLuma : Prop :=
  ∀ (s : State) (curr : Pixel) (dr dg db : Byte),
    EncodesNext s curr → curr ≠ s.prev → s.lookup (cacheIndex curr) ≠ curr →
    (s.hasAlpha = false ∨ curr.a = s.prev.a) →
    dr = curr.r - s.prev.r → dg = curr.g - s.prev.g → db = curr.b - s.prev.b →
    ¬(dr + 2 ≤ 3 ∧ dg + 2 ≤ 3 ∧ db + 2 ≤ 3) →
    dg + 32 ≤ 63 → (dr - dg) + 8 ≤ 15 → (db - dg) + 8 ≤ 15 →
    ∃ t, step s = .next t ∧ CodesPixel s t curr ∧ CachedIn s t curr ∧
      Appends s t (flushBytes s ++ [0x80 ||| (dg + 32), ((dr - dg) + 8) <<< 4 ||| ((db - dg) + 8)])

/-- R116, R120: none of the earlier choices: the four RGB bytes. -/
def Obligations.OtherPixelCodesRgb : Prop :=
  ∀ (s : State) (curr : Pixel) (dr dg db : Byte),
    EncodesNext s curr → curr ≠ s.prev → s.lookup (cacheIndex curr) ≠ curr →
    (s.hasAlpha = false ∨ curr.a = s.prev.a) →
    dr = curr.r - s.prev.r → dg = curr.g - s.prev.g → db = curr.b - s.prev.b →
    ¬(dr + 2 ≤ 3 ∧ dg + 2 ≤ 3 ∧ db + 2 ≤ 3) →
    ¬(dg + 32 ≤ 63 ∧ (dr - dg) + 8 ≤ 15 ∧ (db - dg) + 8 ≤ 15) →
    ∃ t, step s = .next t ∧ CodesPixel s t curr ∧ CachedIn s t curr ∧
      Appends s t (flushBytes s ++ [0xFE, curr.r, curr.g, curr.b])

/-- R124, R125: with all pixels consumed the step flushes the run, appends the end marker and is DONE. -/
def Obligations.EncodeCloseEmitsMarker : Prop :=
  ∀ s : State, NoCommand s → s.phase = .body → s.mode = .enc → s.cnt = s.npix →
    ∃ t, step s = .next t ∧ Appends s t (flushBytes s ++ [0, 0, 0, 0, 0, 0, 0, 1]) ∧
      t = { s with port := s.port.tail, runLen := 0, phase := .done, bpos := t.bpos, encOut := t.encOut }

/-- R36: an input pixel the host did not supply leaves the PSE with no enabled step, in BODY; an ABORT takes it out. That the
step then answers the same state, less a quiet entry, is the model's choice (log entry 2). -/
def Obligations.MissingInputWaitsForAbort : Prop :=
  ∀ s : State, s.phase = .body → s.mode = .enc → s.cnt < s.npix →
    s.encIn.length < (if s.hasAlpha then 4 else 3) * (s.cnt.toNat + 1) →
    (NoCommand s → step s = .next { s with port := s.port.tail }) ∧
    (∀ more, s.port = .abort :: more → ∃ t, step s = .next t ∧ t.phase = .idle)

/-! ### Commands and reset -/

/-- R24, R175: the state after hardware reset. -/
def Obligations.ResetValues : Prop :=
  State.reset.prev = ⟨0, 0, 0, 255⟩ ∧ (∀ i : Fin 64, State.reset.lookup i = ⟨0, 0, 0, 0⟩) ∧
  State.reset.runLen = 0 ∧ State.reset.cnt = 0 ∧ State.reset.bpos = 0 ∧ State.reset.npix = 0 ∧
  State.reset.hasAlpha = false ∧ State.reset.mode = .dec ∧ State.reset.phase = .idle ∧
  State.reset.status = ⟨false, false, false, false⟩ ∧ busyFlag State.reset = false ∧ doneFlag State.reset = false

/-- R21, R24, R176: an accepted START_DEC. The encode spaces are not bound by it and stay (log entry 6). -/
def Obligations.StartDecBeginsStream : Prop :=
  ∀ (s : State) (n : Count) (source : List Byte) (more : List HostEvent),
    s.port = .startDec n source :: more → s.phase ≠ .body →
    ∃ t, step s = .next t ∧
      t.mode = .dec ∧ t.npix = n ∧ t.phase = .body ∧ t.hasAlpha = false ∧
      t.prev = ⟨0, 0, 0, 255⟩ ∧ (∀ i : Fin 64, t.lookup i = ⟨0, 0, 0, 0⟩) ∧ t.runLen = 0 ∧ t.cnt = 0 ∧ t.bpos = 0 ∧
      t.status = ⟨false, false, false, false⟩ ∧ busyFlag t = true ∧ doneFlag t = false ∧
      t.decIn = source ∧ (∀ a, t.decOut.read a = none) ∧ t.encIn = s.encIn ∧ t.encOut = s.encOut ∧ t.port = more

/-- R21, R24, R176: an accepted START_ENC. The decode spaces are not bound by it and stay (log entry 6). -/
def Obligations.StartEncBeginsStream : Prop :=
  ∀ (s : State) (n : Count) (channels : Nat) (samples : List Byte) (more : List HostEvent),
    s.port = .startEnc n channels samples :: more → s.phase ≠ .body → (channels = 3 ∨ channels = 4) →
    ∃ t, step s = .next t ∧
      t.mode = .enc ∧ t.npix = n ∧ t.phase = .body ∧ (t.hasAlpha = true ↔ channels = 4) ∧
      t.prev = ⟨0, 0, 0, 255⟩ ∧ (∀ i : Fin 64, t.lookup i = ⟨0, 0, 0, 0⟩) ∧ t.runLen = 0 ∧ t.cnt = 0 ∧ t.bpos = 0 ∧
      t.status = ⟨false, false, false, false⟩ ∧ busyFlag t = true ∧ doneFlag t = false ∧
      t.encIn = samples ∧ (∀ a, t.encOut.read a = none) ∧ t.decIn = s.decIn ∧ t.decOut = s.decOut ∧ t.port = more

/-- R154: START_ENC with a channel count other than 3 or 4, outside BODY, sets BADPARAM and changes nothing else. -/
def Obligations.OtherChannelCountsRefused : Prop :=
  ∀ (s : State) (n : Count) (channels : Nat) (samples : List Byte) (more : List HostEvent),
    s.port = .startEnc n channels samples :: more → s.phase ≠ .body → channels ≠ 3 → channels ≠ 4 →
    step s = .next { s with port := more, status := { s.status with badParam := true } }

/-- R21: "A START command while PHASE is BODY is ignored". -/
def Obligations.StartIgnoredWhileBusy : Prop :=
  ∀ (s : State) (n : Count) (source samples : List Byte) (channels : Nat) (more : List HostEvent),
    s.phase = .body →
    (s.port = .startDec n source :: more → step s = .next { s with port := more }) ∧
    (s.port = .startEnc n channels samples :: more → step s = .next { s with port := more })

/-- R21, R175: ABORT, and hardware reset, put every register at its reset value from any state; what was written to the
output spaces stays written. -/
def Obligations.AbortAndResetClearRegisters : Prop :=
  ∀ (s : State) (more : List HostEvent), s.port = .abort :: more ∨ s.port = .hardReset :: more →
    step s = .next { State.reset with
      decIn := s.decIn, decOut := s.decOut, encIn := s.encIn, encOut := s.encOut, port := more }

/-- R19, R165: in IDLE and DONE no step is enabled and all state is retained. -/
def Obligations.IdleAndDoneRetainState : Prop :=
  ∀ s : State, s.phase ≠ .body →
    (s.port = [] → step s = .next s) ∧
    (∀ more, s.port = .quiet :: more → step s = .next { s with port := more })

/-- R22: "whatever CACHE, PREV, RUNLEN, CNT, BPOS and STATUS held before a START is unobservable after it". Two machines
that differ in any register or space and accept the same START stay equal ever after, but for the two spaces it does not
bind. -/
def Obligations.PastIsUnobservableAfterStart : Prop :=
  ∀ (s₁ s₂ t₁ t₂ : State) (k : Nat), s₁.phase ≠ .body → s₂.phase ≠ .body → s₁.port = s₂.port →
    Host.Core.run Sys2Proof.core (k + 1) s₁ = .next t₁ → Host.Core.run Sys2Proof.core (k + 1) s₂ = .next t₂ →
    (∀ n source more, s₁.port = .startDec n source :: more →
      t₁ = { t₂ with encIn := t₁.encIn, encOut := t₁.encOut }) ∧
    (∀ n channels samples more, s₁.port = .startEnc n channels samples :: more → (channels = 3 ∨ channels = 4) →
      t₁ = { t₂ with decIn := t₁.decIn, decOut := t₁.decOut })

/-! ### Invariants of every step -/

/-- The invariant holds after reset. -/
def Obligations.ResetMeetsPseInv : Prop := PseInv State.reset

/-- Every step keeps the invariant, whatever command comes at the boundary (R14, R16, R34, R35, R74, R87, R117, R158,
R160). -/
def Obligations.StepKeepsPseInv : Prop :=
  ∀ s t : State, PseInv s → step s = .next t → PseInv t

/-- R74 (a): every step keeps every slot zero or holding a pixel that hashes to it. -/
def Obligations.StepKeepsCacheInv : Prop :=
  ∀ s t : State, CacheInv s → step s = .next t → CacheInv t

/-- R61, R87: "No behaviour of the PSE is treated as `fault`": from every state a run can be in, every step answers a next
state. -/
def Obligations.StepAlwaysAnswers : Prop :=
  ∀ s : State, PseInv s → ∃ t, step s = .next t

/-- The spec's own inference in R160: a step into DONE of a decode, or within it, ends with one of these flag sets and no
other. -/
def Obligations.FlagSetsOfADecode : Prop :=
  ∀ s t : State, PseInv s → step s = .next t → t.phase = .done → t.mode = .dec →
    (t.status.trunc, t.status.underfill, t.status.trailerBad) ∈
      [(false, false, false), (false, false, true), (false, true, true), (true, true, true)]

/-- R20, R162: "once set, no step clears them", and a step of the PSE does not touch BADPARAM. -/
def Obligations.FlagsAreSticky : Prop :=
  ∀ s t : State, PseStep s t →
    (s.status.trunc = true → t.status.trunc = true) ∧
    (s.status.underfill = true → t.status.underfill = true) ∧
    (s.status.trailerBad = true → t.status.trailerBad = true) ∧
    t.status.badParam = s.status.badParam

/-- R13, R14, R87: a step of the PSE never moves BPOS or CNT back, and every decode step that stays in BODY moves BPOS
on. -/
def Obligations.CursorAndCountOnlyGrow : Prop :=
  ∀ s t : State, PseInv s → PseStep s t →
    s.bpos ≤ t.bpos ∧ s.cnt ≤ t.cnt ∧ (s.mode = .dec → t.phase = .body → s.bpos < t.bpos)

/-- R15, R17, R18, R32: a step of the PSE writes no input space and no register a START alone writes; a decode step leaves
RUNLEN and ENC_OUT, and an encode step DEC_OUT. A quiet entry leaves the port. -/
def Obligations.StepsKeepArgumentsAndInputs : Prop :=
  ∀ s t : State, PseStep s t →
    t.decIn = s.decIn ∧ t.encIn = s.encIn ∧ t.npix = s.npix ∧ t.hasAlpha = s.hasAlpha ∧ t.mode = s.mode ∧
    t.port = s.port.tail ∧
    (s.mode = .dec → t.runLen = s.runLen ∧ t.encOut = s.encOut) ∧
    (s.mode = .enc → t.decOut = s.decOut)

/-- The spec's own inference in R158, "[derived: from 42_encode.md rules R110 to R125]": "The encoder raises nothing." -/
def Obligations.EncoderRaisesNothing : Prop :=
  ∀ s t : State, PseStep s t → s.mode = .enc → t.status = s.status

/-! ### Whole operations -/

/-- R87, R97: any bytes and any count decode to DONE, with at most N pixels, all of them written, and the flags as R97
and R160 say. -/
def Obligations.EveryDecodeFinishes : Prop :=
  ∀ (bytes : List Byte) (n : Count), ∃ t out,
    wholeDecode bytes n = .next t ∧ t.phase = .done ∧ t.decodedPixels = some out ∧
    out.length = t.cnt.toNat ∧ out.length ≤ n.toNat ∧ t.bpos ≤ bytes.length ∧
    (t.status.underfill = true ↔ out.length < n.toNat) ∧
    (t.status.underfill = true → t.status.trailerBad = true) ∧
    (t.status.trunc = true → t.status.underfill = true ∧ t.status.trailerBad = true)

/-- R97: `B = body ++ END ++ rest` where the chunks of `body` give N pixels and the last one is needed for the N-th: no
flag, and the cursor just after the marker, whatever `rest` is. -/
def Obligations.CompleteStreamDecodesClean : Prop :=
  ∀ (body : List Instr) (rest : List Byte) (n : Count),
    (∀ i ∈ body, i.wellFormed = true) → n.toNat ≤ (body.map pixelsOf).sum →
    (body.dropLast.map pixelsOf).sum < n.toNat ∨ (body = [] ∧ n = 0) →
    ∃ t, wholeDecode (body.flatMap encode ++ endMarker ++ rest) n = .next t ∧ t.phase = .done ∧ t.cnt = n ∧
      t.status = ⟨false, false, false, false⟩ ∧ t.bpos = (body.flatMap encode).length + 8

/-- R126, R182: an encode with all its samples supplied is DONE after N + 1 steps; its output ends with the end marker and
its length is between 8 + ceil(N / 62) and 5 × N + 8. -/
def Obligations.EveryEncodeFinishes : Prop :=
  ∀ (samples : List Byte) (n : Count) (c : Nat), (c = 3 ∨ c = 4) → c * n.toNat ≤ samples.length →
    ∃ t body, wholeEncode samples n c = .next t ∧ t.phase = .done ∧ t.cnt = n ∧
      t.status = ⟨false, false, false, false⟩ ∧ t.encodedBytes = some (body ++ [0, 0, 0, 0, 0, 0, 0, 1]) ∧
      (n.toNat + 61) / 62 ≤ body.length ∧ body.length ≤ 5 * n.toNat

/-- R126: executing an encode's output with the decoder gives exactly N pixels and no flag, round-trip or not. -/
def Obligations.EncodedStreamDecodesClean : Prop :=
  ∀ (samples : List Byte) (n : Count) (c : Nat), (c = 3 ∨ c = 4) → c * n.toNat ≤ samples.length →
    ∃ t bytes d, wholeEncode samples n c = .next t ∧ t.encodedBytes = some bytes ∧
      wholeDecode bytes n = .next d ∧ d.phase = .done ∧ d.cnt = n ∧ d.status = ⟨false, false, false, false⟩

/-- R80, R126: where the criterion of R80 holds, in particular where pixel 0 is not (0,0,0,255), decoding the encoder's
output gives the input pixels. -/
def Obligations.RoundTripUnderCriterion : Prop :=
  ∀ (samples : List Byte) (n : Count) (c : Nat) (pixels : List Pixel), (c = 3 ∨ c = 4) →
    inputPixels c samples n = some pixels → roundTrips pixels = true →
    ∃ t bytes d, wholeEncode samples n c = .next t ∧ t.encodedBytes = some bytes ∧
      wholeDecode bytes n = .next d ∧ d.decodedPixels = some pixels

/-- R80, conflict C1: where the criterion fails, decoding the encoder's output does not give the input pixels. -/
def Obligations.RoundTripFailsOtherwise : Prop :=
  ∀ (samples : List Byte) (n : Count) (c : Nat) (pixels : List Pixel), (c = 3 ∨ c = 4) →
    inputPixels c samples n = some pixels → roundTrips pixels = false →
    ∃ t bytes d out, wholeEncode samples n c = .next t ∧ t.encodedBytes = some bytes ∧
      wholeDecode bytes n = .next d ∧ d.decodedPixels = some out ∧ out ≠ pixels

/-! ### The Header Codec and the host -/

/-- R141, R142: a written header reads back, whatever follows it; its length is 14. -/
def Obligations.HeaderReadsBack : Prop :=
  ∀ (h : Header) (rest : List Byte), readHeader (writeHeader h ++ rest) = .ok h ∧ (writeHeader h).length = 14

/-- R142: reading fails exactly on fewer than 14 bytes (ShortRead) or a wrong magic (BadMagic); no channels or colorspace
byte is rejected. The bytes 71 6F 69 66 are R140's ASCII codes, which the spec has "[from general knowledge, not in source]"
(PRESUMED, log entry 18). That a short file with a wrong magic is ShortRead is the model's reading (log entry 13). -/
def Obligations.HeaderRejectsShortOrBadMagic : Prop :=
  ∀ file : List Byte,
    (readHeader file = .error .shortRead ↔ file.length < 14) ∧
    (readHeader file = .error .badMagic ↔ 14 ≤ file.length ∧ file.take 4 ≠ [0x71, 0x6F, 0x69, 0x66])

/-- R143: the pixel count is the product of the two dimensions, without overflow. -/
def Obligations.PixelCountIsProduct : Prop :=
  ∀ width height : BitVec 32, (pixelCount width height).toNat = width.toNat * height.toNat

/-- R145, R155, R156: the host starts a decode with N and the bytes after the header, and starts nothing on a malformed
header or where the buffer cannot be reserved. -/
def Obligations.HostStartsDecode : Prop :=
  ∀ (file : List Byte) (h : Header),
    (readHeader file = .ok h →
      hostDecode (some file) true = .ok (.startDec (pixelCount h.width h.height) (file.drop 14)) ∧
      hostDecode (some file) false = .error .allocationFailure) ∧
    (∀ e reserved, readHeader file = .error e → hostDecode (some file) reserved = .error .headerMalformed)
end

