-- ==== Sys2Proof/Laws/Memory.lean ====
section
/-! SUPPORT. The laws of an output space: a byte reads back, every other byte is left alone, and the canonical form is
kept. -/

namespace Sys2Proof.Machine

theorem cellAt_putCell (a : Nat) (v : Byte) (l : List Host.Cell) (b : Nat) :
    cellAt (putCell a v l) b = if a = b then some v else cellAt l b := by
  induction l with
  | nil => simp [putCell, cellAt]
  | cons c rest ih =>
    unfold putCell
    split
    · simp [cellAt]
    · split
      · rename_i h
        subst h
        by_cases hb : c.1 = b <;> simp [cellAt, hb]
      · simp only [cellAt, ih]
        split
        · rename_i h1 h2 h3
          rw [if_neg (by omega)]
        · rfl

@[simp] theorem read_empty (a : Nat) : Memory.empty.read a = none := rfl

theorem read_write (m : Memory) (a : Nat) (v : Byte) (b : Nat) :
    (m.write a v).read b = if a = b then some v else m.read b := cellAt_putCell a v m.cells b

/-- What every address reads after a write of consecutive bytes. -/
theorem read_writeBytes (m : Memory) (a : Nat) (bs : List Byte) (b : Nat) :
    (m.writeBytes a bs).read b = if a ≤ b ∧ b < a + bs.length then bs[b - a]? else m.read b := by
  induction bs generalizing m a with
  | nil => simp [Memory.writeBytes]
  | cons v rest ih =>
    simp only [Memory.writeBytes, ih, read_write, List.length_cons]
    by_cases h1 : a + 1 ≤ b ∧ b < a + 1 + rest.length
    · rw [if_pos h1, if_pos (by omega), show b - a = (b - (a + 1)) + 1 by omega, List.getElem?_cons_succ]
    · rw [if_neg h1]
      by_cases h2 : a = b
      · subst h2
        simp
      · rw [if_neg h2, if_neg (by omega)]

/-- A write of consecutive bytes leaves every address outside them as it was. -/
theorem read_writeBytes_outside (m : Memory) (a : Nat) (bs : List Byte) (b : Nat)
    (h : b < a ∨ a + bs.length ≤ b) : (m.writeBytes a bs).read b = m.read b := by
  rw [read_writeBytes, if_neg (by omega)]

/-- Reading `n` bytes depends on those addresses alone. -/
theorem readBytes_congr (m m' : Memory) (a n : Nat) (h : ∀ b, a ≤ b → b < a + n → m.read b = m'.read b) :
    m.readBytes a n = m'.readBytes a n := by
  induction n generalizing a with
  | zero => rfl
  | succ n ih =>
    simp only [Memory.readBytes, h a (by omega) (by omega), ih (a + 1) fun b h1 h2 => h b (by omega) (by omega)]

/-- Reading `n` bytes that all hold what `bs` lists gives `bs`. -/
theorem readBytes_of_reads (m : Memory) (a : Nat) (bs : List Byte)
    (h : ∀ k, k < bs.length → m.read (a + k) = bs[k]?) : m.readBytes a bs.length = some bs := by
  induction bs generalizing a with
  | nil => rfl
  | cons v rest ih =>
    have h0 := h 0 (by simp)
    have hr := ih (a + 1) fun k hk => by
      have := h (k + 1) (by simpa using hk)
      rwa [show a + (k + 1) = a + 1 + k by omega, List.getElem?_cons_succ] at this
    simp only [Nat.add_zero, List.getElem?_cons_zero] at h0
    simp [Memory.readBytes, h0, hr]

/-- Written bytes read back. -/
theorem readBytes_writeBytes (m : Memory) (a : Nat) (bs : List Byte) :
    (m.writeBytes a bs).readBytes a bs.length = some bs := by
  refine readBytes_of_reads _ _ _ fun k hk => ?_
  rw [read_writeBytes, if_pos (by omega), Nat.add_sub_cancel_left]

/-- Reading two stretches one after the other. -/
theorem readBytes_append (m : Memory) (a n k : Nat) (xs ys : List Byte) (hx : m.readBytes a n = some xs)
    (hy : m.readBytes (a + n) k = some ys) : m.readBytes a (n + k) = some (xs ++ ys) := by
  induction n generalizing a xs with
  | zero =>
    simp only [Memory.readBytes, Option.some.injEq] at hx
    subst hx
    simpa using hy
  | succ n ih =>
    rw [show n + 1 + k = (n + k) + 1 by omega]
    simp only [Memory.readBytes, bind, Option.bind_eq_some_iff, pure, Option.some.injEq] at hx ⊢
    obtain ⟨v, hv, rest, hrest, rfl⟩ := hx
    exact ⟨v, hv, rest ++ ys, ih (a + 1) rest hrest (by rwa [show a + 1 + n = a + (n + 1) by omega]), rfl⟩

/-! ### The canonical form -/

theorem cellsSorted_cons (c : Host.Cell) (l : List Host.Cell) :
    cellsSorted (c :: l) = true ↔ (∀ d ∈ l.head?, c.1 < d.1) ∧ cellsSorted l = true := by
  cases l <;> simp [cellsSorted]

theorem putCell_head (a : Nat) (v : Byte) (l : List Host.Cell) (d : Host.Cell) (h : d ∈ (putCell a v l).head?) :
    d.1 = a ∨ d ∈ l.head? := by
  cases l with
  | nil => simp [putCell] at h; simp [← h]
  | cons c rest =>
    unfold putCell at h
    split at h
    · simp at h; simp [← h]
    · split at h
      · simp at h; simp [← h]
      · simp at h; simp [h]

theorem putCell_sorted (a : Nat) (v : Byte) (l : List Host.Cell) (h : cellsSorted l = true) :
    cellsSorted (putCell a v l) = true := by
  induction l with
  | nil => rfl
  | cons c rest ih =>
    have hc := (cellsSorted_cons c rest).1 h
    unfold putCell
    split
    · exact (cellsSorted_cons _ _).2 ⟨by simpa, h⟩
    · split
      · rename_i h2
        exact (cellsSorted_cons _ _).2 ⟨fun d hd => by have := hc.1 d hd; simpa [← h2] using this, hc.2⟩
      · refine (cellsSorted_cons _ _).2 ⟨fun d hd => ?_, ih hc.2⟩
        rcases putCell_head a v rest d hd with h3 | h3
        · omega
        · exact hc.1 d h3

theorem wf_empty : Memory.empty.wf = true := rfl

/-- Every write keeps the canonical form. -/
theorem wf_write (m : Memory) (a : Nat) (v : Byte) (h : m.wf = true) : (m.write a v).wf = true :=
  putCell_sorted a v m.cells h

theorem wf_writeBytes (m : Memory) (a : Nat) (bs : List Byte) (h : m.wf = true) : (m.writeBytes a bs).wf = true := by
  induction bs generalizing m a with
  | nil => exact h
  | cons v rest ih => exact ih _ _ (wf_write m a v h)

end Sys2Proof.Machine
end

