-- ==== Sys2Proof/Laws/State.lean ====
section
/-! SUPPORT. One lemma per field per named update of State, each true by definition, so that no proof unfolds a record
update. -/

namespace Sys2Proof.Machine

/-! ### State.advance -/

@[simp] theorem advance_cache (s : State) (n : Nat) : (s.advance n).cache = s.cache := rfl
@[simp] theorem advance_prev (s : State) (n : Nat) : (s.advance n).prev = s.prev := rfl
@[simp] theorem advance_bpos (s : State) (n : Nat) : (s.advance n).bpos = s.bpos + n := rfl
@[simp] theorem advance_cnt (s : State) (n : Nat) : (s.advance n).cnt = s.cnt := rfl
@[simp] theorem advance_npix (s : State) (n : Nat) : (s.advance n).npix = s.npix := rfl
@[simp] theorem advance_runLen (s : State) (n : Nat) : (s.advance n).runLen = s.runLen := rfl
@[simp] theorem advance_hasAlpha (s : State) (n : Nat) : (s.advance n).hasAlpha = s.hasAlpha := rfl
@[simp] theorem advance_mode (s : State) (n : Nat) : (s.advance n).mode = s.mode := rfl
@[simp] theorem advance_phase (s : State) (n : Nat) : (s.advance n).phase = s.phase := rfl
@[simp] theorem advance_status (s : State) (n : Nat) : (s.advance n).status = s.status := rfl
@[simp] theorem advance_decIn (s : State) (n : Nat) : (s.advance n).decIn = s.decIn := rfl
@[simp] theorem advance_decOut (s : State) (n : Nat) : (s.advance n).decOut = s.decOut := rfl
@[simp] theorem advance_encIn (s : State) (n : Nat) : (s.advance n).encIn = s.encIn := rfl
@[simp] theorem advance_encOut (s : State) (n : Nat) : (s.advance n).encOut = s.encOut := rfl
@[simp] theorem advance_port (s : State) (n : Nat) : (s.advance n).port = s.port := rfl

/-! ### State.outPixel -/

@[simp] theorem outPixel_cache (s : State) (p : Pixel) : (s.outPixel p).cache = s.cache := rfl
@[simp] theorem outPixel_prev (s : State) (p : Pixel) : (s.outPixel p).prev = s.prev := rfl
@[simp] theorem outPixel_bpos (s : State) (p : Pixel) : (s.outPixel p).bpos = s.bpos := rfl
@[simp] theorem outPixel_cnt (s : State) (p : Pixel) : (s.outPixel p).cnt = s.cnt + 1 := rfl
@[simp] theorem outPixel_npix (s : State) (p : Pixel) : (s.outPixel p).npix = s.npix := rfl
@[simp] theorem outPixel_runLen (s : State) (p : Pixel) : (s.outPixel p).runLen = s.runLen := rfl
@[simp] theorem outPixel_hasAlpha (s : State) (p : Pixel) : (s.outPixel p).hasAlpha = s.hasAlpha := rfl
@[simp] theorem outPixel_mode (s : State) (p : Pixel) : (s.outPixel p).mode = s.mode := rfl
@[simp] theorem outPixel_phase (s : State) (p : Pixel) : (s.outPixel p).phase = s.phase := rfl
@[simp] theorem outPixel_status (s : State) (p : Pixel) : (s.outPixel p).status = s.status := rfl
@[simp] theorem outPixel_decIn (s : State) (p : Pixel) : (s.outPixel p).decIn = s.decIn := rfl
@[simp] theorem outPixel_decOut (s : State) (p : Pixel) : (s.outPixel p).decOut = s.decOut.writeBytes (pixelAddr s.cnt) (pixelBytes p) := rfl
@[simp] theorem outPixel_encIn (s : State) (p : Pixel) : (s.outPixel p).encIn = s.encIn := rfl
@[simp] theorem outPixel_encOut (s : State) (p : Pixel) : (s.outPixel p).encOut = s.encOut := rfl
@[simp] theorem outPixel_port (s : State) (p : Pixel) : (s.outPixel p).port = s.port := rfl

/-! ### State.update -/

@[simp] theorem update_cache (s : State) (p : Pixel) : (s.update p).cache = s.cache.set (cacheIndex p).val p (cacheIndex p).isLt := rfl
@[simp] theorem update_prev (s : State) (p : Pixel) : (s.update p).prev = s.prev := rfl
@[simp] theorem update_bpos (s : State) (p : Pixel) : (s.update p).bpos = s.bpos := rfl
@[simp] theorem update_cnt (s : State) (p : Pixel) : (s.update p).cnt = s.cnt := rfl
@[simp] theorem update_npix (s : State) (p : Pixel) : (s.update p).npix = s.npix := rfl
@[simp] theorem update_runLen (s : State) (p : Pixel) : (s.update p).runLen = s.runLen := rfl
@[simp] theorem update_hasAlpha (s : State) (p : Pixel) : (s.update p).hasAlpha = s.hasAlpha := rfl
@[simp] theorem update_mode (s : State) (p : Pixel) : (s.update p).mode = s.mode := rfl
@[simp] theorem update_phase (s : State) (p : Pixel) : (s.update p).phase = s.phase := rfl
@[simp] theorem update_status (s : State) (p : Pixel) : (s.update p).status = s.status := rfl
@[simp] theorem update_decIn (s : State) (p : Pixel) : (s.update p).decIn = s.decIn := rfl
@[simp] theorem update_decOut (s : State) (p : Pixel) : (s.update p).decOut = s.decOut := rfl
@[simp] theorem update_encIn (s : State) (p : Pixel) : (s.update p).encIn = s.encIn := rfl
@[simp] theorem update_encOut (s : State) (p : Pixel) : (s.update p).encOut = s.encOut := rfl
@[simp] theorem update_port (s : State) (p : Pixel) : (s.update p).port = s.port := rfl

/-! ### State.setPrev -/

@[simp] theorem setPrev_cache (s : State) (p : Pixel) : (s.setPrev p).cache = s.cache := rfl
@[simp] theorem setPrev_prev (s : State) (p : Pixel) : (s.setPrev p).prev = p := rfl
@[simp] theorem setPrev_bpos (s : State) (p : Pixel) : (s.setPrev p).bpos = s.bpos := rfl
@[simp] theorem setPrev_cnt (s : State) (p : Pixel) : (s.setPrev p).cnt = s.cnt := rfl
@[simp] theorem setPrev_npix (s : State) (p : Pixel) : (s.setPrev p).npix = s.npix := rfl
@[simp] theorem setPrev_runLen (s : State) (p : Pixel) : (s.setPrev p).runLen = s.runLen := rfl
@[simp] theorem setPrev_hasAlpha (s : State) (p : Pixel) : (s.setPrev p).hasAlpha = s.hasAlpha := rfl
@[simp] theorem setPrev_mode (s : State) (p : Pixel) : (s.setPrev p).mode = s.mode := rfl
@[simp] theorem setPrev_phase (s : State) (p : Pixel) : (s.setPrev p).phase = s.phase := rfl
@[simp] theorem setPrev_status (s : State) (p : Pixel) : (s.setPrev p).status = s.status := rfl
@[simp] theorem setPrev_decIn (s : State) (p : Pixel) : (s.setPrev p).decIn = s.decIn := rfl
@[simp] theorem setPrev_decOut (s : State) (p : Pixel) : (s.setPrev p).decOut = s.decOut := rfl
@[simp] theorem setPrev_encIn (s : State) (p : Pixel) : (s.setPrev p).encIn = s.encIn := rfl
@[simp] theorem setPrev_encOut (s : State) (p : Pixel) : (s.setPrev p).encOut = s.encOut := rfl
@[simp] theorem setPrev_port (s : State) (p : Pixel) : (s.setPrev p).port = s.port := rfl

/-! ### State.outBytes -/

@[simp] theorem outBytes_cache (s : State) (bs : List Byte) : (s.outBytes bs).cache = s.cache := rfl
@[simp] theorem outBytes_prev (s : State) (bs : List Byte) : (s.outBytes bs).prev = s.prev := rfl
@[simp] theorem outBytes_bpos (s : State) (bs : List Byte) : (s.outBytes bs).bpos = s.bpos + bs.length := rfl
@[simp] theorem outBytes_cnt (s : State) (bs : List Byte) : (s.outBytes bs).cnt = s.cnt := rfl
@[simp] theorem outBytes_npix (s : State) (bs : List Byte) : (s.outBytes bs).npix = s.npix := rfl
@[simp] theorem outBytes_runLen (s : State) (bs : List Byte) : (s.outBytes bs).runLen = s.runLen := rfl
@[simp] theorem outBytes_hasAlpha (s : State) (bs : List Byte) : (s.outBytes bs).hasAlpha = s.hasAlpha := rfl
@[simp] theorem outBytes_mode (s : State) (bs : List Byte) : (s.outBytes bs).mode = s.mode := rfl
@[simp] theorem outBytes_phase (s : State) (bs : List Byte) : (s.outBytes bs).phase = s.phase := rfl
@[simp] theorem outBytes_status (s : State) (bs : List Byte) : (s.outBytes bs).status = s.status := rfl
@[simp] theorem outBytes_decIn (s : State) (bs : List Byte) : (s.outBytes bs).decIn = s.decIn := rfl
@[simp] theorem outBytes_decOut (s : State) (bs : List Byte) : (s.outBytes bs).decOut = s.decOut := rfl
@[simp] theorem outBytes_encIn (s : State) (bs : List Byte) : (s.outBytes bs).encIn = s.encIn := rfl
@[simp] theorem outBytes_encOut (s : State) (bs : List Byte) : (s.outBytes bs).encOut = s.encOut.writeBytes s.bpos bs := rfl
@[simp] theorem outBytes_port (s : State) (bs : List Byte) : (s.outBytes bs).port = s.port := rfl

/-! ### State.emit -/

@[simp] theorem emit_cache (s : State) (i : Instr) : (s.emit i).cache = s.cache := rfl
@[simp] theorem emit_prev (s : State) (i : Instr) : (s.emit i).prev = s.prev := rfl
@[simp] theorem emit_bpos (s : State) (i : Instr) : (s.emit i).bpos = s.bpos + (encode i).length := rfl
@[simp] theorem emit_cnt (s : State) (i : Instr) : (s.emit i).cnt = s.cnt := rfl
@[simp] theorem emit_npix (s : State) (i : Instr) : (s.emit i).npix = s.npix := rfl
@[simp] theorem emit_runLen (s : State) (i : Instr) : (s.emit i).runLen = s.runLen := rfl
@[simp] theorem emit_hasAlpha (s : State) (i : Instr) : (s.emit i).hasAlpha = s.hasAlpha := rfl
@[simp] theorem emit_mode (s : State) (i : Instr) : (s.emit i).mode = s.mode := rfl
@[simp] theorem emit_phase (s : State) (i : Instr) : (s.emit i).phase = s.phase := rfl
@[simp] theorem emit_status (s : State) (i : Instr) : (s.emit i).status = s.status := rfl
@[simp] theorem emit_decIn (s : State) (i : Instr) : (s.emit i).decIn = s.decIn := rfl
@[simp] theorem emit_decOut (s : State) (i : Instr) : (s.emit i).decOut = s.decOut := rfl
@[simp] theorem emit_encIn (s : State) (i : Instr) : (s.emit i).encIn = s.encIn := rfl
@[simp] theorem emit_encOut (s : State) (i : Instr) : (s.emit i).encOut = s.encOut.writeBytes s.bpos (encode i) := rfl
@[simp] theorem emit_port (s : State) (i : Instr) : (s.emit i).port = s.port := rfl

/-! ### State.streamStart -/

@[simp] theorem streamStart_cache (s : State) (m : Mode) (n : Count) (h : Bool) : (s.streamStart m n h).cache = Vector.replicate 64 zeroPixel := rfl
@[simp] theorem streamStart_prev (s : State) (m : Mode) (n : Count) (h : Bool) : (s.streamStart m n h).prev = startPixel := rfl
@[simp] theorem streamStart_bpos (s : State) (m : Mode) (n : Count) (h : Bool) : (s.streamStart m n h).bpos = 0 := rfl
@[simp] theorem streamStart_cnt (s : State) (m : Mode) (n : Count) (h : Bool) : (s.streamStart m n h).cnt = 0 := rfl
@[simp] theorem streamStart_npix (s : State) (m : Mode) (n : Count) (h : Bool) : (s.streamStart m n h).npix = n := rfl
@[simp] theorem streamStart_runLen (s : State) (m : Mode) (n : Count) (h : Bool) : (s.streamStart m n h).runLen = 0 := rfl
@[simp] theorem streamStart_hasAlpha (s : State) (m : Mode) (n : Count) (h : Bool) : (s.streamStart m n h).hasAlpha = h := rfl
@[simp] theorem streamStart_mode (s : State) (m : Mode) (n : Count) (h : Bool) : (s.streamStart m n h).mode = m := rfl
@[simp] theorem streamStart_phase (s : State) (m : Mode) (n : Count) (h : Bool) : (s.streamStart m n h).phase = .body := rfl
@[simp] theorem streamStart_status (s : State) (m : Mode) (n : Count) (h : Bool) : (s.streamStart m n h).status = clearFlags := rfl
@[simp] theorem streamStart_decIn (s : State) (m : Mode) (n : Count) (h : Bool) : (s.streamStart m n h).decIn = s.decIn := rfl
@[simp] theorem streamStart_decOut (s : State) (m : Mode) (n : Count) (h : Bool) : (s.streamStart m n h).decOut = s.decOut := rfl
@[simp] theorem streamStart_encIn (s : State) (m : Mode) (n : Count) (h : Bool) : (s.streamStart m n h).encIn = s.encIn := rfl
@[simp] theorem streamStart_encOut (s : State) (m : Mode) (n : Count) (h : Bool) : (s.streamStart m n h).encOut = s.encOut := rfl
@[simp] theorem streamStart_port (s : State) (m : Mode) (n : Count) (h : Bool) : (s.streamStart m n h).port = s.port := rfl

/-! ### State.resetRegisters -/

@[simp] theorem resetRegisters_cache (s : State) : (s.resetRegisters).cache = State.reset.cache := rfl
@[simp] theorem resetRegisters_prev (s : State) : (s.resetRegisters).prev = State.reset.prev := rfl
@[simp] theorem resetRegisters_bpos (s : State) : (s.resetRegisters).bpos = State.reset.bpos := rfl
@[simp] theorem resetRegisters_cnt (s : State) : (s.resetRegisters).cnt = State.reset.cnt := rfl
@[simp] theorem resetRegisters_npix (s : State) : (s.resetRegisters).npix = State.reset.npix := rfl
@[simp] theorem resetRegisters_runLen (s : State) : (s.resetRegisters).runLen = State.reset.runLen := rfl
@[simp] theorem resetRegisters_hasAlpha (s : State) : (s.resetRegisters).hasAlpha = State.reset.hasAlpha := rfl
@[simp] theorem resetRegisters_mode (s : State) : (s.resetRegisters).mode = State.reset.mode := rfl
@[simp] theorem resetRegisters_phase (s : State) : (s.resetRegisters).phase = State.reset.phase := rfl
@[simp] theorem resetRegisters_status (s : State) : (s.resetRegisters).status = State.reset.status := rfl
@[simp] theorem resetRegisters_decIn (s : State) : (s.resetRegisters).decIn = s.decIn := rfl
@[simp] theorem resetRegisters_decOut (s : State) : (s.resetRegisters).decOut = s.decOut := rfl
@[simp] theorem resetRegisters_encIn (s : State) : (s.resetRegisters).encIn = s.encIn := rfl
@[simp] theorem resetRegisters_encOut (s : State) : (s.resetRegisters).encOut = s.encOut := rfl
@[simp] theorem resetRegisters_port (s : State) : (s.resetRegisters).port = s.port := rfl

/-! ### State.raise -/

@[simp] theorem raise_cache (s : State) (c : Condition) : (s.raise c).cache = s.cache := by cases c <;> rfl
@[simp] theorem raise_prev (s : State) (c : Condition) : (s.raise c).prev = s.prev := by cases c <;> rfl
@[simp] theorem raise_cnt (s : State) (c : Condition) : (s.raise c).cnt = s.cnt := by cases c <;> rfl
@[simp] theorem raise_npix (s : State) (c : Condition) : (s.raise c).npix = s.npix := by cases c <;> rfl
@[simp] theorem raise_runLen (s : State) (c : Condition) : (s.raise c).runLen = s.runLen := by cases c <;> rfl
@[simp] theorem raise_hasAlpha (s : State) (c : Condition) : (s.raise c).hasAlpha = s.hasAlpha := by cases c <;> rfl
@[simp] theorem raise_mode (s : State) (c : Condition) : (s.raise c).mode = s.mode := by cases c <;> rfl
@[simp] theorem raise_phase (s : State) (c : Condition) : (s.raise c).phase = s.phase := by cases c <;> rfl
@[simp] theorem raise_decIn (s : State) (c : Condition) : (s.raise c).decIn = s.decIn := by cases c <;> rfl
@[simp] theorem raise_decOut (s : State) (c : Condition) : (s.raise c).decOut = s.decOut := by cases c <;> rfl
@[simp] theorem raise_encIn (s : State) (c : Condition) : (s.raise c).encIn = s.encIn := by cases c <;> rfl
@[simp] theorem raise_encOut (s : State) (c : Condition) : (s.raise c).encOut = s.encOut := by cases c <;> rfl
@[simp] theorem raise_port (s : State) (c : Condition) : (s.raise c).port = s.port := by cases c <;> rfl
@[simp] theorem raise_status (s : State) (c : Condition) : (s.raise c).status = setFlag c s.status := by cases c <;> rfl
theorem raise_bpos (s : State) (c : Condition) :
    (s.raise c).bpos = if c = .truncatedStream then s.decIn.length else s.bpos := by cases c <;> rfl
@[simp] theorem raise_truncated_bpos (s : State) : (s.raise .truncatedStream).bpos = s.decIn.length := rfl
@[simp] theorem raise_trailer_bpos (s : State) : (s.raise .trailerMismatch).bpos = s.bpos := rfl
@[simp] theorem raise_underfilled_bpos (s : State) : (s.raise .underfilledOutput).bpos = s.bpos := rfl
@[simp] theorem raise_badParam_bpos (s : State) : (s.raise .badParam).bpos = s.bpos := rfl

/-! ### State.outPixels: `k` pixels touch DEC_OUT and CNT alone -/

@[simp] theorem outPixels_cache (s : State) (p : Pixel) (k : Nat) : (s.outPixels p k).cache = s.cache := by
  induction k generalizing s with
  | zero => rfl
  | succ k ih => simp [State.outPixels, ih]
@[simp] theorem outPixels_prev (s : State) (p : Pixel) (k : Nat) : (s.outPixels p k).prev = s.prev := by
  induction k generalizing s with
  | zero => rfl
  | succ k ih => simp [State.outPixels, ih]
@[simp] theorem outPixels_bpos (s : State) (p : Pixel) (k : Nat) : (s.outPixels p k).bpos = s.bpos := by
  induction k generalizing s with
  | zero => rfl
  | succ k ih => simp [State.outPixels, ih]
@[simp] theorem outPixels_npix (s : State) (p : Pixel) (k : Nat) : (s.outPixels p k).npix = s.npix := by
  induction k generalizing s with
  | zero => rfl
  | succ k ih => simp [State.outPixels, ih]
@[simp] theorem outPixels_runLen (s : State) (p : Pixel) (k : Nat) : (s.outPixels p k).runLen = s.runLen := by
  induction k generalizing s with
  | zero => rfl
  | succ k ih => simp [State.outPixels, ih]
@[simp] theorem outPixels_hasAlpha (s : State) (p : Pixel) (k : Nat) : (s.outPixels p k).hasAlpha = s.hasAlpha := by
  induction k generalizing s with
  | zero => rfl
  | succ k ih => simp [State.outPixels, ih]
@[simp] theorem outPixels_mode (s : State) (p : Pixel) (k : Nat) : (s.outPixels p k).mode = s.mode := by
  induction k generalizing s with
  | zero => rfl
  | succ k ih => simp [State.outPixels, ih]
@[simp] theorem outPixels_phase (s : State) (p : Pixel) (k : Nat) : (s.outPixels p k).phase = s.phase := by
  induction k generalizing s with
  | zero => rfl
  | succ k ih => simp [State.outPixels, ih]
@[simp] theorem outPixels_status (s : State) (p : Pixel) (k : Nat) : (s.outPixels p k).status = s.status := by
  induction k generalizing s with
  | zero => rfl
  | succ k ih => simp [State.outPixels, ih]
@[simp] theorem outPixels_decIn (s : State) (p : Pixel) (k : Nat) : (s.outPixels p k).decIn = s.decIn := by
  induction k generalizing s with
  | zero => rfl
  | succ k ih => simp [State.outPixels, ih]
@[simp] theorem outPixels_encIn (s : State) (p : Pixel) (k : Nat) : (s.outPixels p k).encIn = s.encIn := by
  induction k generalizing s with
  | zero => rfl
  | succ k ih => simp [State.outPixels, ih]
@[simp] theorem outPixels_encOut (s : State) (p : Pixel) (k : Nat) : (s.outPixels p k).encOut = s.encOut := by
  induction k generalizing s with
  | zero => rfl
  | succ k ih => simp [State.outPixels, ih]
@[simp] theorem outPixels_port (s : State) (p : Pixel) (k : Nat) : (s.outPixels p k).port = s.port := by
  induction k generalizing s with
  | zero => rfl
  | succ k ih => simp [State.outPixels, ih]
@[simp] theorem outPixels_cnt (s : State) (p : Pixel) (k : Nat) : (s.outPixels p k).cnt = s.cnt + BitVec.ofNat 64 k := by
  induction k generalizing s with
  | zero => simp [State.outPixels]
  | succ k ih => simp only [State.outPixels, ih, outPixel_cnt]; bv_omega

/-- `k` pixels change CNT and DEC_OUT and nothing else. -/
theorem outPixels_rest (s : State) (p : Pixel) (k : Nat) :
    s.outPixels p k = { s with cnt := s.cnt + BitVec.ofNat 64 k, decOut := (s.outPixels p k).decOut } := by
  induction k generalizing s with
  | zero => simp [State.outPixels]
  | succ k ih =>
    have hc : s.cnt + 1 + BitVec.ofNat 64 k = s.cnt + BitVec.ofNat 64 (k + 1) := by bv_omega
    rw [State.outPixels, ih]
    simp only [outPixel_cnt, hc]
    rfl

end Sys2Proof.Machine
end

