-- ==== Sys2Proof/Laws/Ops.lean ====
section
/-! SUPPORT. What each shared operation does, said once. -/

namespace Sys2Proof.Machine

theorem avail_iff (s : State) (n : Nat) : s.avail n = true ↔ s.bpos + n ≤ s.decIn.length := by simp [State.avail]

/-! ### The cache -/

theorem lookup_of_cache {s t : State} (h : s.cache = t.cache) (i : Fin 64) : s.lookup i = t.lookup i := by
  simp only [State.lookup, h]

/-- A cache write changes the slot of the hash and no other (R72). -/
theorem lookup_update (s : State) (p : Pixel) (i : Fin 64) :
    (s.update p).lookup i = if i = cacheIndex p then p else s.lookup i := by
  simp only [State.lookup, State.update, Fin.getElem_fin, Vector.getElem_set]
  by_cases h : i = cacheIndex p
  · simp [h]
  · rw [if_neg h, if_neg (by intro hv; exact h (Fin.ext hv.symm))]

theorem cachedIn_update (s : State) (p : Pixel) : CachedIn s (s.update p) p := lookup_update s p

theorem cacheInv_update {s : State} (h : CacheInv s) (p : Pixel) : CacheInv (s.update p) := by
  intro i
  rw [lookup_update]
  split
  · rename_i hi; exact .inr hi.symm
  · exact h i

theorem cacheInv_congr {s t : State} (h : t.cache = s.cache) (hs : CacheInv s) : CacheInv t := fun i => by
  simpa only [lookup_of_cache h] using hs i

theorem lookup_zeroed (s : State) (h : s.cache = Vector.replicate 64 zeroPixel) (i : Fin 64) :
    s.lookup i = zeroPixel := by
  simp [State.lookup, h]

theorem cacheInv_zeroed (s : State) (h : s.cache = Vector.replicate 64 zeroPixel) : CacheInv s :=
  fun i => .inl (lookup_zeroed s h i)

/-! ### Pixels into DEC_OUT -/

theorem length_pixelBytes (p : Pixel) : (pixelBytes p).length = 4 := rfl

theorem cnt_succ (s : State) (h : s.cnt < s.npix) : (s.cnt + 1).toNat = s.cnt.toNat + 1 := by
  have := s.npix.isLt
  simp only [BitVec.lt_def] at h
  simp [BitVec.toNat_add]
  omega

/-- `k` pixels move CNT by `k`, as long as NPIX leaves room for them. -/
theorem outPixels_cnt_toNat (s : State) (p : Pixel) (k : Nat) (h : s.cnt.toNat + k ≤ s.npix.toNat) :
    (s.outPixels p k).cnt.toNat = s.cnt.toNat + k := by
  have := s.npix.isLt
  simp only [outPixels_cnt, BitVec.toNat_add, BitVec.toNat_ofNat]
  omega

/-- What every address of DEC_OUT reads after `k` pixels: the pixel's bytes over and over in the bytes of pixel numbers
CNT .. CNT + k − 1, everything else as before. -/
theorem outPixels_read (s : State) (p : Pixel) (k : Nat) (h : s.cnt.toNat + k ≤ s.npix.toNat) (a : Nat) :
    (s.outPixels p k).decOut.read a =
      if pixelAddr s.cnt ≤ a ∧ a < pixelAddr s.cnt + 4 * k then (pixelBytes p)[(a - pixelAddr s.cnt) % 4]?
      else s.decOut.read a := by
  induction k generalizing s with
  | zero => simp [State.outPixels]
  | succ k ih =>
    have hc : s.cnt < s.npix := by simp only [BitVec.lt_def]; omega
    have h1 := cnt_succ s hc
    have ha : pixelAddr (s.outPixel p).cnt = pixelAddr s.cnt + 4 := by simp only [pixelAddr, outPixel_cnt, h1]; omega
    rw [State.outPixels, ih _ (by simp only [outPixel_cnt, outPixel_npix, h1]; omega), ha, outPixel_decOut, read_writeBytes, length_pixelBytes]
    by_cases h2 : pixelAddr s.cnt + 4 ≤ a ∧ a < pixelAddr s.cnt + 4 + 4 * k
    · rw [if_pos h2, if_pos (by omega)]
      congr 1
      omega
    · rw [if_neg h2]
      by_cases h3 : pixelAddr s.cnt ≤ a ∧ a < pixelAddr s.cnt + 4
      · rw [if_pos h3, if_pos (by omega), Nat.mod_eq_of_lt (by omega)]
      · rw [if_neg h3, if_neg (by omega)]

/-- Each of the `k` pixels reads back whole. -/
theorem outPixels_stored (s : State) (p : Pixel) (k : Nat) (h : s.cnt.toNat + k ≤ s.npix.toNat) (j : Nat) (hj : j < k) :
    (s.outPixels p k).decOut.readBytes (pixelAddr s.cnt + 4 * j) 4 = some (pixelBytes p) := by
  refine readBytes_of_reads _ _ (pixelBytes p) fun b hb => ?_
  rw [length_pixelBytes] at hb
  rw [outPixels_read s p k h, if_pos (by omega)]
  congr 1
  omega

theorem outPixels_wf (s : State) (p : Pixel) (k : Nat) (h : s.decOut.wf = true) :
    (s.outPixels p k).decOut.wf = true := by
  induction k generalizing s with
  | zero => exact h
  | succ k ih => exact ih _ (wf_writeBytes _ _ _ h)

/-- The commit of one pixel by a chunk of `n` bytes, whatever it did to the cache, in the terms of claims. -/
theorem commits_outPixel (s : State) (cache : Vector Pixel 64) (p : Pixel) (n : Nat) (hc : s.cnt < s.npix) :
    Commits s ((({ s with bpos := s.bpos + n, cache := cache } : State).outPixel p).setPrev p) p n :=
  ⟨rfl, cnt_succ s hc, rfl, readBytes_writeBytes _ _ (pixelBytes p),
    fun a ha => read_writeBytes_outside _ _ (pixelBytes p) a ha, rfl⟩

theorem setPrev_self (s : State) (p : Pixel) (h : s.prev = p) : s.setPrev p = s := by subst h; rfl

/-- A commit answers a next state exactly where CNT is below NPIX. -/
theorem commit_eq (s : State) (p : Pixel) :
    s.commit p = if s.cnt < s.npix then .next ((s.outPixel p).setPrev p) else .fault .pastImage := rfl

/-! ### Bytes into ENC_OUT -/

/-- The bytes are there, and no other byte differs (R35). -/
theorem appends_outBytes (s : State) (bs : List Byte) : Appends s (s.outBytes bs) bs :=
  ⟨rfl, readBytes_writeBytes _ _ _, fun _ h => read_writeBytes_outside _ _ _ _ h⟩

theorem Appends.trans {s t u : State} {xs ys : List Byte} (h1 : Appends s t xs) (h2 : Appends t u ys) :
    Appends s u (xs ++ ys) := by
  refine ⟨by rw [h2.cursor, h1.cursor, List.length_append]; omega, ?_, fun a ha => ?_⟩
  · rw [List.length_append]
    refine readBytes_append _ _ _ _ _ _ ?_ (by rw [← h1.cursor]; exact h2.stored)
    rw [← h1.stored]
    exact readBytes_congr _ _ _ _ fun b _ hb => h2.keptBytes b (.inl (by rw [h1.cursor]; exact hb))
  · rw [List.length_append] at ha
    rw [h2.keptBytes a (by rw [h1.cursor]; omega), h1.keptBytes a (by omega)]

/-- `Appends` looks at BPOS and ENC_OUT alone. -/
theorem Appends.congr {s s' t t' : State} {bs : List Byte} (h : Appends s t bs) (hb : s'.bpos = s.bpos)
    (ho : s'.encOut = s.encOut) (hb' : t'.bpos = t.bpos) (ho' : t'.encOut = t.encOut) : Appends s' t' bs :=
  ⟨by rw [hb', hb, h.cursor], by rw [ho', hb, h.stored], fun a ha => by rw [ho', ho]; exact h.keptBytes a (by rwa [hb] at ha)⟩

theorem Appends.nil (s t : State) (hb : t.bpos = s.bpos) (ho : t.encOut = s.encOut) : Appends s t [] :=
  ⟨by simp [hb], rfl, fun a _ => by rw [ho]⟩

end Sys2Proof.Machine
end

