-- ==== Sys2Proof/Laws/Chunks.lean ====
section
/-! SUPPORT. Everything an operator of the decoder can do. -/

namespace Sys2Proof.Machine

/-- A chunk with trailing bytes, all of them there. -/
theorem trailingCommit_whole (s : State) (n : Nat) (p : Pixel) (h : s.bpos + (n + 1) ≤ s.decIn.length) :
    s.trailingCommit n p = (s.advance (n + 1)).commitCached p := by
  have ha : (s.advance 1).avail n = true := (avail_iff _ _).2 (by simp only [advance_bpos, advance_decIn]; omega)
  have hs : (s.advance 1).advance n = s.advance (n + 1) := by
    simp only [State.advance, show s.bpos + 1 + n = s.bpos + (n + 1) by omega]
  rw [State.trailingCommit, if_pos ha, hs]

/-- A chunk whose trailing bytes are cut off. -/
theorem trailingCommit_cut (s : State) (n : Nat) (p : Pixel) (h : s.decIn.length < s.bpos + (n + 1)) :
    s.trailingCommit n p = .next (s.raise .truncatedStream) := by
  have ha : ¬(s.advance 1).avail n = true := by
    rw [avail_iff]
    simp only [advance_bpos, advance_decIn]
    omega
  rw [State.trailingCommit, if_neg ha]
  rfl

theorem commitCached_next (s : State) (p : Pixel) (h : s.cnt < s.npix) :
    s.commitCached p = .next (((s.update p).outPixel p).setPrev p) := by
  rw [State.commitCached, commit_eq, if_pos (by simpa using h)]

/-- If an operator answers a next state, then either it was cut short and raised TruncatedStream, or it moved past its
bytes and output one pixel `k` times, having written it to the cache or not. -/
theorem exec_next_cases {i : Instr} {s t : State} (h : exec i s = .next t) :
    (1 < i.length ∧ s.decIn.length < s.bpos + i.length ∧ t = s.raise .truncatedStream) ∨
    ∃ (p : Pixel) (k : Nat) (cached : Bool), 1 ≤ k ∧ s.cnt.toNat + k ≤ s.npix.toNat ∧
      (i.length = 1 ∨ s.bpos + i.length ≤ s.decIn.length) ∧
      t = (((bif cached then s.update p else s).advance i.length).outPixels p k).setPrev p := by
  have trailing : ∀ (n : Nat) (p : Pixel), i.length = n + 1 → 1 ≤ n → s.trailingCommit n p = .next t →
      (1 < i.length ∧ s.decIn.length < s.bpos + i.length ∧ t = s.raise .truncatedStream) ∨
      ∃ (p : Pixel) (k : Nat) (cached : Bool), 1 ≤ k ∧ s.cnt.toNat + k ≤ s.npix.toNat ∧
        (i.length = 1 ∨ s.bpos + i.length ≤ s.decIn.length) ∧
        t = (((bif cached then s.update p else s).advance i.length).outPixels p k).setPrev p := by
    intro n p hl hn ht
    by_cases hb : s.bpos + (n + 1) ≤ s.decIn.length
    · rw [trailingCommit_whole s n p hb, State.commitCached, commit_eq] at ht
      split at ht
      · rename_i hc
        simp only [update_cnt, update_npix, advance_cnt, advance_npix, BitVec.lt_def] at hc
        injection ht with ht
        exact .inr ⟨p, 1, true, by omega, by omega, .inr (by omega), by rw [← ht, hl]; rfl⟩
      · exact absurd ht (by simp)
    · rw [trailingCommit_cut s n p (by omega)] at ht
      injection ht with ht
      exact .inl ⟨by omega, by omega, ht.symm⟩
  have plain : ∀ (p : Pixel) (cached : Bool), i.length = 1 →
      ((bif cached then (s.advance 1).update p else s.advance 1).commit p) = .next t →
      ∃ (p : Pixel) (k : Nat) (cached : Bool), 1 ≤ k ∧ s.cnt.toNat + k ≤ s.npix.toNat ∧
        (i.length = 1 ∨ s.bpos + i.length ≤ s.decIn.length) ∧
        t = (((bif cached then s.update p else s).advance i.length).outPixels p k).setPrev p := by
    intro p cached hl ht
    rw [commit_eq] at ht
    split at ht
    · rename_i hc
      injection ht with ht
      have hc : s.cnt.toNat < s.npix.toNat := by cases cached <;> simpa [BitVec.lt_def] using hc
      exact ⟨p, 1, cached, by omega, by omega, .inl hl, by rw [← ht, hl]; cases cached <;> rfl⟩
    · exact absurd ht (by simp)
  cases i with
  | rgb r g b => exact trailing 3 _ rfl (by omega) h
  | rgba r g b a => exact trailing 4 _ rfl (by omega) h
  | index idx => exact .inr (plain _ false rfl h)
  | diff fr fg fb => exact .inr (plain _ true rfl h)
  | luma fgl frg fbg => exact trailing 1 _ rfl (by omega) h
  | run n =>
    simp only [exec, execRun] at h
    split at h
    · exact absurd h (by simp)
    · split at h
      · rename_i hc
        injection h with h
        simp only [BitVec.lt_def] at hc
        refine .inr ⟨s.prev, min (runLength n) (s.npix.toNat - s.cnt.toNat), false, ?_, by omega, .inl rfl, ?_⟩
        · simp only [runLength]; omega
        · rw [← h]
          exact (setPrev_self _ _ (by simp)).symm
      · exact absurd h (by simp)

/-- The cache an operator leaves: as it was, or with one pixel written. -/
theorem cacheInv_exec {i : Instr} {s t : State} (hs : CacheInv s) (h : exec i s = .next t) : CacheInv t := by
  rcases exec_next_cases h with ⟨-, -, rfl⟩ | ⟨p, k, cached, -, -, -, rfl⟩
  · exact cacheInv_congr (by simp) hs
  · cases cached
    · exact cacheInv_congr (by simp) hs
    · exact cacheInv_congr (s := s.update p) (by simp) (cacheInv_update hs p)

end Sys2Proof.Machine
end

