-- ==== Sys2Proof/Laws/Encode.lean ====
section
/-! SUPPORT. Everything the encode operator selector can do. -/

namespace Sys2Proof.Machine

/-! ### What each part of an encode step leaves alone -/

@[simp] theorem flushRun_cache (s : State) : (s.flushRun).cache = s.cache := by unfold State.flushRun; split <;> rfl
@[simp] theorem flushRun_prev (s : State) : (s.flushRun).prev = s.prev := by unfold State.flushRun; split <;> rfl
@[simp] theorem flushRun_cnt (s : State) : (s.flushRun).cnt = s.cnt := by unfold State.flushRun; split <;> rfl
@[simp] theorem flushRun_npix (s : State) : (s.flushRun).npix = s.npix := by unfold State.flushRun; split <;> rfl
@[simp] theorem flushRun_hasAlpha (s : State) : (s.flushRun).hasAlpha = s.hasAlpha := by unfold State.flushRun; split <;> rfl
@[simp] theorem flushRun_mode (s : State) : (s.flushRun).mode = s.mode := by unfold State.flushRun; split <;> rfl
@[simp] theorem flushRun_phase (s : State) : (s.flushRun).phase = s.phase := by unfold State.flushRun; split <;> rfl
@[simp] theorem flushRun_status (s : State) : (s.flushRun).status = s.status := by unfold State.flushRun; split <;> rfl
@[simp] theorem flushRun_decIn (s : State) : (s.flushRun).decIn = s.decIn := by unfold State.flushRun; split <;> rfl
@[simp] theorem flushRun_decOut (s : State) : (s.flushRun).decOut = s.decOut := by unfold State.flushRun; split <;> rfl
@[simp] theorem flushRun_encIn (s : State) : (s.flushRun).encIn = s.encIn := by unfold State.flushRun; split <;> rfl
@[simp] theorem flushRun_port (s : State) : (s.flushRun).port = s.port := by unfold State.flushRun; split <;> rfl
@[simp] theorem flushRun_runLen (s : State) : (s.flushRun).runLen = 0 := by
  unfold State.flushRun; split
  · assumption
  · rfl

@[simp] theorem countRun_cache (s : State) : (s.countRun).cache = s.cache := by unfold State.countRun; split <;> rfl
@[simp] theorem countRun_prev (s : State) : (s.countRun).prev = s.prev := by unfold State.countRun; split <;> rfl
@[simp] theorem countRun_cnt (s : State) : (s.countRun).cnt = s.cnt := by unfold State.countRun; split <;> rfl
@[simp] theorem countRun_npix (s : State) : (s.countRun).npix = s.npix := by unfold State.countRun; split <;> rfl
@[simp] theorem countRun_hasAlpha (s : State) : (s.countRun).hasAlpha = s.hasAlpha := by unfold State.countRun; split <;> rfl
@[simp] theorem countRun_mode (s : State) : (s.countRun).mode = s.mode := by unfold State.countRun; split <;> rfl
@[simp] theorem countRun_phase (s : State) : (s.countRun).phase = s.phase := by unfold State.countRun; split <;> rfl
@[simp] theorem countRun_status (s : State) : (s.countRun).status = s.status := by unfold State.countRun; split <;> rfl
@[simp] theorem countRun_decIn (s : State) : (s.countRun).decIn = s.decIn := by unfold State.countRun; split <;> rfl
@[simp] theorem countRun_decOut (s : State) : (s.countRun).decOut = s.decOut := by unfold State.countRun; split <;> rfl
@[simp] theorem countRun_encIn (s : State) : (s.countRun).encIn = s.encIn := by unfold State.countRun; split <;> rfl
@[simp] theorem countRun_port (s : State) : (s.countRun).port = s.port := by unfold State.countRun; split <;> rfl

@[simp] theorem firstPixelFixup_prev (s : State) (p : Pixel) : (s.firstPixelFixup p).prev = s.prev := by unfold State.firstPixelFixup; split <;> rfl
@[simp] theorem firstPixelFixup_cnt (s : State) (p : Pixel) : (s.firstPixelFixup p).cnt = s.cnt := by unfold State.firstPixelFixup; split <;> rfl
@[simp] theorem firstPixelFixup_bpos (s : State) (p : Pixel) : (s.firstPixelFixup p).bpos = s.bpos := by unfold State.firstPixelFixup; split <;> rfl
@[simp] theorem firstPixelFixup_runLen (s : State) (p : Pixel) : (s.firstPixelFixup p).runLen = s.runLen := by unfold State.firstPixelFixup; split <;> rfl
@[simp] theorem firstPixelFixup_encOut (s : State) (p : Pixel) : (s.firstPixelFixup p).encOut = s.encOut := by unfold State.firstPixelFixup; split <;> rfl
@[simp] theorem firstPixelFixup_npix (s : State) (p : Pixel) : (s.firstPixelFixup p).npix = s.npix := by unfold State.firstPixelFixup; split <;> rfl
@[simp] theorem firstPixelFixup_hasAlpha (s : State) (p : Pixel) : (s.firstPixelFixup p).hasAlpha = s.hasAlpha := by unfold State.firstPixelFixup; split <;> rfl
@[simp] theorem firstPixelFixup_mode (s : State) (p : Pixel) : (s.firstPixelFixup p).mode = s.mode := by unfold State.firstPixelFixup; split <;> rfl
@[simp] theorem firstPixelFixup_phase (s : State) (p : Pixel) : (s.firstPixelFixup p).phase = s.phase := by unfold State.firstPixelFixup; split <;> rfl
@[simp] theorem firstPixelFixup_status (s : State) (p : Pixel) : (s.firstPixelFixup p).status = s.status := by unfold State.firstPixelFixup; split <;> rfl
@[simp] theorem firstPixelFixup_decIn (s : State) (p : Pixel) : (s.firstPixelFixup p).decIn = s.decIn := by unfold State.firstPixelFixup; split <;> rfl
@[simp] theorem firstPixelFixup_decOut (s : State) (p : Pixel) : (s.firstPixelFixup p).decOut = s.decOut := by unfold State.firstPixelFixup; split <;> rfl
@[simp] theorem firstPixelFixup_encIn (s : State) (p : Pixel) : (s.firstPixelFixup p).encIn = s.encIn := by unfold State.firstPixelFixup; split <;> rfl
@[simp] theorem firstPixelFixup_port (s : State) (p : Pixel) : (s.firstPixelFixup p).port = s.port := by unfold State.firstPixelFixup; split <;> rfl

@[simp] theorem selectChunk_prev (s : State) (p : Pixel) : (s.selectChunk p).prev = s.prev := by unfold State.selectChunk; split <;> rfl
@[simp] theorem selectChunk_cnt (s : State) (p : Pixel) : (s.selectChunk p).cnt = s.cnt := by unfold State.selectChunk; split <;> rfl
@[simp] theorem selectChunk_runLen (s : State) (p : Pixel) : (s.selectChunk p).runLen = s.runLen := by unfold State.selectChunk; split <;> rfl
@[simp] theorem selectChunk_npix (s : State) (p : Pixel) : (s.selectChunk p).npix = s.npix := by unfold State.selectChunk; split <;> rfl
@[simp] theorem selectChunk_hasAlpha (s : State) (p : Pixel) : (s.selectChunk p).hasAlpha = s.hasAlpha := by unfold State.selectChunk; split <;> rfl
@[simp] theorem selectChunk_mode (s : State) (p : Pixel) : (s.selectChunk p).mode = s.mode := by unfold State.selectChunk; split <;> rfl
@[simp] theorem selectChunk_phase (s : State) (p : Pixel) : (s.selectChunk p).phase = s.phase := by unfold State.selectChunk; split <;> rfl
@[simp] theorem selectChunk_status (s : State) (p : Pixel) : (s.selectChunk p).status = s.status := by unfold State.selectChunk; split <;> rfl
@[simp] theorem selectChunk_decIn (s : State) (p : Pixel) : (s.selectChunk p).decIn = s.decIn := by unfold State.selectChunk; split <;> rfl
@[simp] theorem selectChunk_decOut (s : State) (p : Pixel) : (s.selectChunk p).decOut = s.decOut := by unfold State.selectChunk; split <;> rfl
@[simp] theorem selectChunk_encIn (s : State) (p : Pixel) : (s.selectChunk p).encIn = s.encIn := by unfold State.selectChunk; split <;> rfl
@[simp] theorem selectChunk_port (s : State) (p : Pixel) : (s.selectChunk p).port = s.port := by unfold State.selectChunk; split <;> rfl

@[simp] theorem continueRun_prev (s : State) (p : Pixel) : (s.continueRun p).prev = s.prev := by simp [State.continueRun]
@[simp] theorem continueRun_npix (s : State) (p : Pixel) : (s.continueRun p).npix = s.npix := by simp [State.continueRun]
@[simp] theorem continueRun_hasAlpha (s : State) (p : Pixel) : (s.continueRun p).hasAlpha = s.hasAlpha := by simp [State.continueRun]
@[simp] theorem continueRun_mode (s : State) (p : Pixel) : (s.continueRun p).mode = s.mode := by simp [State.continueRun]
@[simp] theorem continueRun_phase (s : State) (p : Pixel) : (s.continueRun p).phase = s.phase := by simp [State.continueRun]
@[simp] theorem continueRun_status (s : State) (p : Pixel) : (s.continueRun p).status = s.status := by simp [State.continueRun]
@[simp] theorem continueRun_decIn (s : State) (p : Pixel) : (s.continueRun p).decIn = s.decIn := by simp [State.continueRun]
@[simp] theorem continueRun_decOut (s : State) (p : Pixel) : (s.continueRun p).decOut = s.decOut := by simp [State.continueRun]
@[simp] theorem continueRun_encIn (s : State) (p : Pixel) : (s.continueRun p).encIn = s.encIn := by simp [State.continueRun]
@[simp] theorem continueRun_port (s : State) (p : Pixel) : (s.continueRun p).port = s.port := by simp [State.continueRun]

@[simp] theorem codePixel_npix (s : State) (p : Pixel) : (s.codePixel p).npix = s.npix := by simp [State.codePixel]
@[simp] theorem codePixel_hasAlpha (s : State) (p : Pixel) : (s.codePixel p).hasAlpha = s.hasAlpha := by simp [State.codePixel]
@[simp] theorem codePixel_mode (s : State) (p : Pixel) : (s.codePixel p).mode = s.mode := by simp [State.codePixel]
@[simp] theorem codePixel_phase (s : State) (p : Pixel) : (s.codePixel p).phase = s.phase := by simp [State.codePixel]
@[simp] theorem codePixel_status (s : State) (p : Pixel) : (s.codePixel p).status = s.status := by simp [State.codePixel]
@[simp] theorem codePixel_decIn (s : State) (p : Pixel) : (s.codePixel p).decIn = s.decIn := by simp [State.codePixel]
@[simp] theorem codePixel_decOut (s : State) (p : Pixel) : (s.codePixel p).decOut = s.decOut := by simp [State.codePixel]
@[simp] theorem codePixel_encIn (s : State) (p : Pixel) : (s.codePixel p).encIn = s.encIn := by simp [State.codePixel]
@[simp] theorem codePixel_port (s : State) (p : Pixel) : (s.codePixel p).port = s.port := by simp [State.codePixel]

@[simp] theorem encodePixel_npix (s : State) (p : Pixel) : (s.encodePixel p).npix = s.npix := by unfold State.encodePixel; split <;> simp
@[simp] theorem encodePixel_hasAlpha (s : State) (p : Pixel) : (s.encodePixel p).hasAlpha = s.hasAlpha := by unfold State.encodePixel; split <;> simp
@[simp] theorem encodePixel_mode (s : State) (p : Pixel) : (s.encodePixel p).mode = s.mode := by unfold State.encodePixel; split <;> simp
@[simp] theorem encodePixel_phase (s : State) (p : Pixel) : (s.encodePixel p).phase = s.phase := by unfold State.encodePixel; split <;> simp
@[simp] theorem encodePixel_status (s : State) (p : Pixel) : (s.encodePixel p).status = s.status := by unfold State.encodePixel; split <;> simp
@[simp] theorem encodePixel_decIn (s : State) (p : Pixel) : (s.encodePixel p).decIn = s.decIn := by unfold State.encodePixel; split <;> simp
@[simp] theorem encodePixel_decOut (s : State) (p : Pixel) : (s.encodePixel p).decOut = s.decOut := by unfold State.encodePixel; split <;> simp
@[simp] theorem encodePixel_encIn (s : State) (p : Pixel) : (s.encodePixel p).encIn = s.encIn := by unfold State.encodePixel; split <;> simp
@[simp] theorem encodePixel_port (s : State) (p : Pixel) : (s.encodePixel p).port = s.port := by unfold State.encodePixel; split <;> simp

/-- After every encode step PREV is the pixel just consumed (R122). -/
@[simp] theorem encodePixel_prev (s : State) (p : Pixel) : (s.encodePixel p).prev = p := by
  unfold State.encodePixel
  split
  · rename_i h; simp [h]
  · simp [State.codePixel]

@[simp] theorem encodePixel_cnt (s : State) (p : Pixel) : (s.encodePixel p).cnt = s.cnt + 1 := by
  unfold State.encodePixel
  split <;> simp [State.continueRun, State.codePixel]

/-! ### The bytes of the chunks, as the spec writes them -/

theorem run_byte : ∀ n : BitVec 6, (0b11#2 ++ n : Byte) = 0xC0 ||| n.setWidth 8 := by decide

theorem index_byte : ∀ i : Fin 64, (0b00#2 ++ (BitVec.ofFin i : BitVec 6) : Byte) = BitVec.ofNat 8 i.val := by decide

theorem sub8_eq (x y : Byte) : sub8 x y = x - y := by
  apply BitVec.eq_of_toNat_eq
  have := x.isLt
  have := y.isLt
  simp only [sub8, BitVec.toNat_ofInt, BitVec.toNat_sub]
  omega

theorem inDiff_iff (d : Byte) : inDiff d = true ↔ d + 2 ≤ 3 := by
  simp [inDiff, BitVec.le_def, BitVec.toNat_add]

theorem inLumaG_iff (d : Byte) : inLumaG d = true ↔ d + 32 ≤ 63 := by
  simp [inLumaG, BitVec.le_def, BitVec.toNat_add]

theorem inLumaRB_iff (d : Byte) : inLumaRB d = true ↔ d + 8 ≤ 15 := by
  simp [inLumaRB, BitVec.le_def, BitVec.toNat_add]

/-! ### Run flush, run count, and the chunk -/

/-- The flush appends exactly the byte R123 puts in brackets. -/
theorem appends_flushRun (s : State) : Appends s s.flushRun (flushBytes s) := by
  unfold State.flushRun flushBytes
  split
  · exact Appends.nil _ _ rfl rfl
  · have h := appends_outBytes s (encode (.run (s.runLen - 1)))
    simp only [encode, run_byte] at h
    exact h.congr rfl rfl rfl rfl

/-- The state after the flush differs in RUNLEN, BPOS and ENC_OUT alone. -/
theorem flushRun_rest (s : State) :
    s.flushRun = { s with runLen := 0, bpos := s.flushRun.bpos, encOut := s.flushRun.encOut } := by
  unfold State.flushRun
  split
  · rename_i h; rw [← h]
  · rfl

/-- The 62nd pixel of a run emits its RUN chunk at once (R112). -/
theorem countRun_full {s : State} (h : s.runLen + 1 = 62) :
    s.countRun = { s.emit (.run 61) with runLen := 0 } := if_pos h

/-- Any other pixel of a run is only counted (R112). -/
theorem countRun_grow {s : State} (h : ¬s.runLen + 1 = 62) : s.countRun = { s with runLen := s.runLen + 1 } := if_neg h

/-- An encode step changes PREV, CNT, RUNLEN, BPOS, ENC_OUT and the cache at most. -/
theorem encodePixel_rest (s : State) (p : Pixel) :
    s.encodePixel p = { s with
      prev := p, cnt := s.cnt + 1, runLen := (s.encodePixel p).runLen, bpos := (s.encodePixel p).bpos,
      encOut := (s.encodePixel p).encOut, cache := (s.encodePixel p).cache } := by
  rw [← encodePixel_npix s p, ← encodePixel_hasAlpha s p, ← encodePixel_mode s p, ← encodePixel_phase s p,
    ← encodePixel_status s p, ← encodePixel_decIn s p, ← encodePixel_decOut s p, ← encodePixel_encIn s p,
    ← encodePixel_port s p, ← encodePixel_cnt s p]
  conv => rhs; arg 2; rw [← encodePixel_prev s p]

/-- The chunk of a differing pixel: INDEX with the cache as it was where the slot holds it, else the literal chunk with the
pixel written to its slot. -/
theorem selectChunk_cases (s : State) (curr : Pixel) :
    (s.lookup (cacheIndex curr) = curr ∧ s.selectChunk curr = s.emit (.index (BitVec.ofFin (cacheIndex curr)))) ∨
    (s.lookup (cacheIndex curr) ≠ curr ∧ s.selectChunk curr = (s.update curr).emit (literalChunk s.hasAlpha s.prev curr)) := by
  unfold State.selectChunk
  split
  · rename_i h; exact .inl ⟨h, rfl⟩
  · rename_i h; exact .inr ⟨h, rfl⟩

theorem cacheInv_selectChunk {s : State} (h : CacheInv s) (curr : Pixel) : CacheInv (s.selectChunk curr) := by
  rcases selectChunk_cases s curr with ⟨-, e⟩ | ⟨-, e⟩ <;> rw [e]
  · exact cacheInv_congr (by simp) h
  · exact cacheInv_congr (s := s.update curr) (by simp) (cacheInv_update h curr)

theorem cacheInv_encodePixel {s : State} (h : CacheInv s) (curr : Pixel) : CacheInv (s.encodePixel curr) := by
  unfold State.encodePixel
  split
  · have hc : CacheInv s.countRun := cacheInv_congr (by simp) h
    have hf : CacheInv (s.countRun.firstPixelFixup curr) := by
      unfold State.firstPixelFixup
      split
      · exact cacheInv_update hc curr
      · exact hc
    exact cacheInv_congr (by simp [State.continueRun]) hf
  · exact cacheInv_congr (by simp [State.codePixel]) (cacheInv_selectChunk (s := s.flushRun) (cacheInv_congr (by simp) h) curr)

/-- The literal chunk is one of RGBA, DIFF, LUMA and RGB, so it is well-formed. -/
theorem literalChunk_wellFormed (hasAlpha : Bool) (prev curr : Pixel) :
    (literalChunk hasAlpha prev curr).wellFormed = true := by
  unfold literalChunk
  dsimp only
  split
  · rfl
  · split
    · rfl
    · split <;> rfl

/-- A differing pixel's step is the flush, then the chunk, then PREV and CNT; together the bytes of both (R123). -/
theorem codePixel_appends (s : State) (curr : Pixel) (bs : List Byte)
    (h : Appends s.flushRun (s.flushRun.selectChunk curr) bs) : Appends s (s.codePixel curr) (flushBytes s ++ bs) :=
  ((appends_flushRun s).trans h).congr rfl rfl rfl rfl

/-- The input pixel is there only below NPIX. -/
theorem inPixel_some {s : State} {p : Pixel} (h : s.inPixel = some p) : s.cnt < s.npix := by
  unfold State.inPixel at h
  split at h
  · assumption
  · exact absurd h (by simp)

/-- At 3 channels every input pixel has alpha 255 (R36). -/
theorem inPixel_alpha {s : State} {p : Pixel} (h : s.inPixel = some p) (ha : s.hasAlpha = false) : p.a = 255 := by
  unfold State.inPixel at h
  rw [if_pos (inPixel_some (by unfold State.inPixel; exact h))] at h
  split at h
  · simp_all
  · injection h with h
    rw [← h]
  · exact absurd h (by simp)
  · exact absurd h (by simp)

end Sys2Proof.Machine
end

