-- ==== Sys2Proof/Laws/Step.lean ====
section
/-! SUPPORT. Everything a step can do. -/

namespace Sys2Proof.Machine

/-- With no command at the port a step is what PHASE and MODE enable. -/
theorem step_of_empty_port {s : State} (h : s.port = []) : step s = s.runPse := by
  simp only [step, State.boundary, h]

/-- A quiet entry is taken off the port first. -/
theorem step_of_quiet_port {s : State} {more : List HostEvent} (h : s.port = .quiet :: more) :
    step s = ({ s with port := more } : State).runPse := by
  simp only [step, State.boundary, h, State.command]

/-- With no command at the boundary the step is the PSE's, from the state with a quiet entry taken off the port. -/
theorem step_of_noCommand {s : State} (h : NoCommand s) : step s = ({ s with port := s.port.tail } : State).runPse := by
  rcases h with h | ⟨more, h⟩
  · rw [step_of_empty_port h, show ({ s with port := s.port.tail } : State) = s by cases s; simp_all]
  · rw [step_of_quiet_port h, h, List.tail_cons]

/-- A command at the port is what the step does. -/
theorem step_of_command {s t : State} {e : HostEvent} {more : List HostEvent} (h : s.port = e :: more)
    (hc : ({ s with port := more } : State).command e = some t) : step s = .next t := by
  simp only [step, State.boundary, h, hc]

/-- In BODY of a decode the PSE takes a decode step (R18). -/
theorem runPse_dec {s : State} (hb : s.phase = .body) (hm : s.mode = .dec) : s.runPse = s.decodeStep := by
  simp only [State.runPse, hb, hm]

/-- In BODY of an encode the PSE takes an encode step (R18). -/
theorem runPse_enc {s : State} (hb : s.phase = .body) (hm : s.mode = .enc) : s.runPse = s.encodeStep := by
  simp only [State.runPse, hb, hm]

/-- Outside BODY no step is enabled (R19). -/
theorem runPse_still {s : State} (hb : s.phase ≠ .body) : s.runPse = .next s := by
  unfold State.runPse
  split <;> simp_all

/-- If a step answers a next state, a command made it, or the PSE did, from the state with a quiet entry taken off. -/
theorem step_cases {s t : State} (h : step s = .next t) :
    (∃ e more, s.port = e :: more ∧ ({ s with port := more } : State).command e = some t) ∨
    (NoCommand s ∧ ({ s with port := s.port.tail } : State).runPse = .next t) := by
  have pse (hn : NoCommand s) : NoCommand s ∧ ({ s with port := s.port.tail } : State).runPse = .next t :=
    ⟨hn, by rwa [step_of_noCommand hn] at h⟩
  cases hp : s.port with
  | nil => exact .inr (by simpa [hp] using pse (.inl hp))
  | cons e more =>
    simp only [step, State.boundary, hp] at h
    split at h
    · rename_i u hu
      injection h with h
      exact .inl ⟨e, more, rfl, by rw [hu, h]⟩
    · rename_i hn
      cases e with
      | quiet => exact .inr (by simpa [hp] using pse (.inr ⟨more, hp⟩))
      | startDec n source => exact absurd hn (by simp [State.command])
      | startEnc n channels samples => exact absurd hn (by simp [State.command])
      | abort => exact absurd hn (by simp [State.command])
      | hardReset => exact absurd hn (by simp [State.command])

/-- A decode step closes, or runs the chunk at BPOS while pixels are wanted and a tag is there (R85, R86). -/
theorem decodeStep_cases {s t : State} (h : s.decodeStep = .next t) :
    ((s.cnt = s.npix ∨ s.decIn.length ≤ s.bpos) ∧ t = s.decodeClose) ∨
    (s.cnt ≠ s.npix ∧ s.bpos < s.decIn.length ∧ exec s.fetchChunk s = .next t) := by
  unfold State.decodeStep at h
  simp only [Bool.or_eq_true, decide_eq_true_eq, Bool.not_eq_true', Bool.eq_false_iff, ne_eq, avail_iff] at h
  split at h
  · rename_i hc
    injection h with h
    exact .inl ⟨hc.imp id (by omega), h.symm⟩
  · rename_i hc
    exact .inr ⟨fun hn => hc (.inl hn), by omega, h⟩

/-- An encode step closes, waits for a pixel the host did not supply, or codes its pixel (R110). -/
theorem encodeStep_cases {s t : State} (h : s.encodeStep = .next t) :
    (s.cnt = s.npix ∧ t = s.encodeClose) ∨ (s.inPixel = none ∧ t = s) ∨
    ∃ curr, s.inPixel = some curr ∧ t = s.encodePixel curr := by
  unfold State.encodeStep at h
  split at h
  · rename_i hc
    injection h with h
    exact .inl ⟨hc, h.symm⟩
  · split at h
    · rename_i curr hp
      injection h with h
      exact .inr (.inr ⟨curr, hp, h.symm⟩)
    · rename_i hp
      injection h with h
      exact .inr (.inl ⟨hp, h.symm⟩)

/-- With an input pixel there, an encode step before the closing one codes it. -/
theorem encodeStep_of_pixel {s : State} {curr : Pixel} (hn : s.cnt ≠ s.npix) (hi : s.inPixel = some curr) :
    s.encodeStep = .next (s.encodePixel curr) := by
  simp only [State.encodeStep, if_neg hn, hi]

/-- An encode step that is due codes its pixel. -/
theorem step_of_encodesNext {s : State} {curr : Pixel} (h : EncodesNext s curr) :
    step s = .next (({ s with port := s.port.tail } : State).encodePixel curr) := by
  obtain ⟨hp, hb, hm, hn, hi⟩ := h
  rw [step_of_noCommand hp, runPse_enc (s := { s with port := s.port.tail }) hb hm]
  exact encodeStep_of_pixel hn hi

/-- What the PSE does with no command: nothing outside BODY, a decode step or an encode step in it (R18, R19). -/
theorem runPse_cases {s t : State} (h : s.runPse = .next t) :
    (s.phase ≠ .body ∧ t = s) ∨ (s.phase = .body ∧ s.mode = .dec ∧ s.decodeStep = .next t) ∨
    (s.phase = .body ∧ s.mode = .enc ∧ s.encodeStep = .next t) := by
  unfold State.runPse at h
  split at h
  · rename_i h1 h2; exact .inr (.inl ⟨h1, h2, h⟩)
  · rename_i h1 h2; exact .inr (.inr ⟨h1, h2, h⟩)
  · rename_i h1; injection h with h; exact .inl ⟨by simp [h1], h.symm⟩
  · rename_i h1; injection h with h; exact .inl ⟨by simp [h1], h.symm⟩

/-- The chunk at BPOS is the one the decoder reads from there. -/
theorem fetchChunk_of_decode {s : State} {i : Instr} {rest : List Byte}
    (h : decode (s.decIn.drop s.bpos) = .ok (i, rest)) : s.fetchChunk = i := by
  cases hd : s.decIn.drop s.bpos with
  | nil => rw [hd] at h; exact absurd h (by simp [decode])
  | cons b more =>
    have hg : ∀ k, s.fetchByte k = (b :: more).getD k 0 := fun k => by
      rw [← hd]
      simp [State.fetchByte, List.getD_eq_getElem?_getD, List.getElem?_drop]
    rw [hd] at h
    simp only [decode] at h
    split at h
    · injection h with h
      rw [Prod.mk.injEq] at h
      rw [← h.1]
      simp [State.fetchChunk, hg]
    · exact absurd h (by simp)

/-- What the closing step of a decode does to each register (R99). -/
theorem decodeClose_eq (s : State) (found : Bool)
    (hf : found = true ↔ s.bpos + 8 ≤ s.decIn.length ∧ (s.decIn.drop s.bpos).take 8 = endMarker) :
    s.decodeClose = { s with
      phase := .done
      bpos := if found then s.bpos + 8 else min (s.bpos + 8) s.decIn.length
      status := { s.status with
        underfill := s.status.underfill || decide (s.cnt < s.npix)
        trailerBad := s.status.trailerBad || !found } } := by
  have hu : s.reportUnderfill =
      { s with status := { s.status with underfill := s.status.underfill || decide (s.cnt < s.npix) } } := by
    unfold State.reportUnderfill
    split
    · rename_i h; simp [State.raise, setFlag, h]
    · rename_i h; simp [h]
  rw [State.decodeClose, hu, State.checkTrailer]
  simp only [avail_iff, Bool.and_eq_true, decide_eq_true_eq]
  cases found with
  | true => rw [if_pos (hf.1 rfl)]; simp [State.advance]
  | false => rw [if_neg (fun h => absurd (hf.2 h) (by simp))]; simp [State.raise, setFlag]

end Sys2Proof.Machine
end

