-- ==== Sys2Proof/Laws/PerInstr.lean ====
section
/-! SUPPORT. The statements made once per constructor of Instr, for every field value. -/

namespace Sys2Proof.Laws.ChunkBytes

/-- The bytes of a well-formed chunk begin with a tag that alone gives their number (spec 30_encoding.md R51). -/
def Statement (i : Instr) : Prop :=
  i.wellFormed = true → (encode i).length = i.length ∧ ((encode i).head?.map chunkLength) = some i.length

theorem rgb (r g b : Byte) : Statement (.rgb r g b) := fun _ => ⟨rfl, by simp [encode, chunkLength, chunkOf, Instr.length]⟩

theorem rgba (r g b a : Byte) : Statement (.rgba r g b a) :=
  fun _ => ⟨rfl, by simp [encode, chunkLength, chunkOf, Instr.length]⟩

theorem index (idx : BitVec 6) : Statement (.index idx) := by
  intro _
  have h : ∀ n : BitVec 6, chunkLength (0b00#2 ++ n) = 1 := by decide
  exact ⟨rfl, congrArg some (h idx)⟩

theorem diff (fr fg fb : BitVec 2) : Statement (.diff fr fg fb) := by
  intro _
  have h : ∀ x y z : BitVec 2, chunkLength (0b01#2 ++ x ++ y ++ z) = 1 := by decide
  exact ⟨rfl, congrArg some (h fr fg fb)⟩

theorem luma (fgl : BitVec 6) (frg fbg : BitVec 4) : Statement (.luma fgl frg fbg) := by
  intro _
  have h : ∀ n : BitVec 6, chunkLength (0b10#2 ++ n) = 2 := by decide
  exact ⟨rfl, congrArg some (h fgl)⟩

theorem run (n : BitVec 6) : Statement (.run n) := by
  intro hw
  have h : ∀ n : BitVec 6, n.toNat ≤ 61 → chunkLength (0b11#2 ++ n) = 1 := by decide
  exact ⟨rfl, congrArg some (h n (by simpa [Instr.wellFormed] using hw))⟩

end Sys2Proof.Laws.ChunkBytes
end

