-- ==== Sys2Proof/Tests/Slice0.lean ====
section
/-! SUPPORT. The model's own tests: words and vectors of the spec (95_test_vectors.md and the examples of the rules), and a
witness for the hypotheses of every obligation that has some. -/

namespace Sys2Proof.Tests

open Sys2Proof.Machine

/-! ### Helpers -/

/-- A decode in progress over `bytes`, wanting `n` pixels, with PREV `q`. -/
def decState (bytes : List Byte) (n : Count) (q : Pixel) : State :=
  { State.reset with phase := .body, decIn := bytes, npix := n, prev := q }

/-- An encode in progress over `samples`, with PREV `q`, at pixel position `at_` of `n`. -/
def encState (alpha : Bool) (samples : List Byte) (at_ n : Count) (q : Pixel) : State :=
  { State.reset with
    phase := .body, mode := .enc, hasAlpha := alpha, encIn := samples, cnt := at_, npix := n, prev := q }

/-- Whether a step answers a next state with a property. -/
def after (o : Host.Outcome State Fault Refusal) (p : State → Bool) : Bool :=
  match o with
  | .next t => p t
  | .fault _ => false
  | .refused _ => false

/-- The one chunk an encode step emits for `curr` after PREV (100,100,100,255), as in table V-E. -/
def codes (curr : Pixel) (bytes : List Byte) : Bool :=
  after (step (encState true ([0, 0, 0, 0] ++ pixelBytes curr) 1 2 ⟨100, 100, 100, 255⟩)) fun t =>
    decide (t.encodedBytes = some bytes)

/-! ### Syntax and encodings -/

theorem smoke_run_62_is_ill_formed : (Instr.run 62).wellFormed = false := by decide
theorem smoke_run_63_is_ill_formed : (Instr.run 63).wellFormed = false := by decide
theorem smoke_run_61_is_well_formed : (Instr.run 61).wellFormed = true := by decide

/-- R53. -/
theorem test_word_rgb : decode [0b11111110, 0b00001010, 0b00010100, 0b00011110, 7] = .ok (.rgb 10 20 30, [7]) := by decide
/-- R54. -/
theorem test_word_rgba : decode [0b11111111, 1, 2, 3, 0b10000000] = .ok (.rgba 1 2 3 128, []) := by decide
/-- R55. -/
theorem test_word_index : decode [0b00110101] = .ok (.index 53, []) := by decide
/-- R56, V-E row (1, −2, 0): `72`. -/
theorem test_word_diff : decode [0b01110010] = .ok (.diff 0b11 0b00 0b10, []) := by decide
/-- R58, V-E row (7, 0, −8): `A0 F0`. -/
theorem test_word_luma : decode [0b10100000, 0b11110000] = .ok (.luma 0b100000 0b1111 0b0000, []) := by decide
/-- R59: the longest run. -/
theorem test_word_run : decode [0b11111101] = .ok (.run 61, []) := by decide
/-- R60: the opcode table's numbering puts the tag in bits 7..0. -/
theorem test_table_word : decodeTableWord 32 0x1E140AFE = some (.rgb 10 20 30) := by decide
/-- R151: a tag cut off from its bytes. -/
theorem test_cut_words : decode [0xFE, 1, 2] = .error .cutRgb ∧ decode [0xFF, 1, 2, 3] = .error .cutRgba ∧
    decode [0xA2] = .error .cutLuma ∧ decode [] = .error .noTag := by decide
/-- Program P1 of 95_test_vectors.md in the textual form of R64. -/
theorem test_program_p1 :
    assemble [.rgb 10 20 30, .diff 1 1 1, .luma 2 0 0, .index 9, .run 2, .index 53, .finish] =
      some [0xFE, 0x0A, 0x14, 0x1E, 0x7F, 0xA2, 0x88, 0x09, 0xC1, 0x35, 0, 0, 0, 0, 0, 0, 0, 1] := by decide

/-! ### Hash and delta unit (tables V-H and V-A) -/

theorem test_hash : cacheIndex ⟨0, 0, 0, 255⟩ = 53 ∧ cacheIndex ⟨255, 255, 255, 255⟩ = 38 ∧
    cacheIndex ⟨200, 0, 7, 128⟩ = 9 ∧ cacheIndex ⟨1, 2, 3, 128⟩ = 34 ∧ cacheIndex ⟨64, 64, 64, 64⟩ = 0 := by decide
theorem test_add8 : add8 255 1 = 0 ∧ add8 0 (-2) = 254 ∧ add8 250 38 = 32 ∧ add8 10 (-40) = 226 := by decide
theorem test_sub8 : sub8 0 255 = 1 ∧ sub8 255 0 = 255 ∧ sub8 5 250 = 11 ∧ sub8 10 20 = 246 := by decide
theorem test_ranges : inDiff 254 = true ∧ inDiff 253 = false ∧ inDiff 2 = false ∧ inLumaG 224 = true ∧
    inLumaG 223 = false ∧ inLumaG 32 = false ∧ inLumaRB 248 = true ∧ inLumaRB 247 = false ∧ inLumaRB 8 = false := by decide

/-! ### Decode steps -/

/-- V-D row D1. -/
theorem test_rgb : after (step (decState [0xFE, 10, 20, 30] 1 startPixel)) (fun t =>
    decide (t.prev = ⟨10, 20, 30, 255⟩ ∧ t.lookup 9 = ⟨10, 20, 30, 255⟩ ∧ t.bpos = 4 ∧ t.decodedPixels = some [⟨10, 20, 30, 255⟩])) =
      true := by decide
/-- V-T row T1. -/
theorem test_rgb_cut : after (step (decState [0xFE, 10, 20] 3 startPixel)) (fun t =>
    decide (t.status.trunc = true ∧ t.bpos = 3 ∧ t.cnt = 0 ∧ t.prev = startPixel ∧ t.phase = .body)) = true := by decide
/-- V-D row D2. -/
theorem test_rgba : after (step (decState [0xFF, 1, 2, 3, 128] 1 startPixel)) (fun t =>
    decide (t.prev = ⟨1, 2, 3, 128⟩ ∧ t.lookup 34 = ⟨1, 2, 3, 128⟩ ∧ t.bpos = 5)) = true := by decide
/-- V-S6: a slot never written. -/
theorem test_index_unwritten : after (step (decState [0x35] 1 startPixel)) (fun t =>
    decide (t.prev = zeroPixel ∧ t.cnt = 1 ∧ t.bpos = 1 ∧ t.cache = State.reset.cache)) = true := by decide
/-- R91's example: 255 + 1 wraps, and slot 53 is written. -/
theorem test_diff_wraps : after (step (decState [0x7A] 1 ⟨255, 0, 0, 255⟩)) (fun t =>
    decide (t.prev = ⟨0, 0, 0, 255⟩ ∧ t.lookup 53 = ⟨0, 0, 0, 255⟩)) = true := by decide
/-- V-D row D8. -/
theorem test_diff_lowest : after (step (decState [0x40] 1 startPixel)) (fun t =>
    decide (t.prev = ⟨254, 254, 254, 255⟩ ∧ t.lookup 23 = ⟨254, 254, 254, 255⟩)) = true := by decide
/-- V-D row D14. -/
theorem test_luma_lowest : after (step (decState [0x80, 0x00] 1 ⟨250, 5, 10, 255⟩)) (fun t =>
    decide (t.prev = ⟨210, 229, 226, 255⟩ ∧ t.lookup 18 = t.prev ∧ t.bpos = 2)) = true := by decide
/-- V-T row T5: LUMA cut before its second byte. -/
theorem test_luma_cut : after (step (decState [0xA2] 3 startPixel)) (fun t =>
    decide (t.status.trunc = true ∧ t.bpos = 1 ∧ t.cnt = 0)) = true := by decide
/-- V-R row R2: the run is cut at NPIX. -/
theorem test_run_cut : after (step (decState [0xC5] 2 ⟨10, 20, 30, 255⟩)) (fun t =>
    decide (t.cnt = 2 ∧ t.bpos = 1 ∧ t.decodedPixels = some [⟨10, 20, 30, 255⟩, ⟨10, 20, 30, 255⟩])) = true := by decide
/-- V-D row D15: no cache update. -/
theorem test_run_no_cache : after (step (decState [0xC0] 1 startPixel)) (fun t =>
    decide (t.cnt = 1 ∧ t.cache = State.reset.cache)) = true := by decide
/-- V-N row N1 and V-N row N3: the closing step with NPIX 0. -/
theorem test_close : after (step (decState [0, 0, 0, 0, 0, 0, 0, 1] 0 startPixel)) (fun t =>
    decide (t.bpos = 8 ∧ statusWord t = 0b000010)) = true ∧
    after (step (decState [0xFE, 1, 2, 3, 0, 0, 0, 0, 0, 0, 0, 1] 0 startPixel)) (fun t =>
    decide (t.bpos = 8 ∧ statusWord t = 0b010010)) = true := by decide
/-- V-T row T7: nothing to read. -/
theorem test_close_empty : after (step (decState [] 3 startPixel)) (fun t =>
    decide (t.bpos = 0 ∧ statusWord t = 0b011010)) = true := by decide

/-! ### Encode steps (table V-E, and the examples of R112 to R120) -/

theorem test_encode_diff : codes ⟨101, 98, 100, 255⟩ [0x72] = true := by decide
theorem test_encode_luma : codes ⟨97, 98, 98, 255⟩ [0x9E, 0x78] = true := by decide
theorem test_encode_luma_edge : codes ⟨60, 68, 60, 255⟩ [0x80, 0x00] = true := by decide
theorem test_encode_rgb : codes ⟨139, 131, 138, 255⟩ [0xFE, 0x8B, 0x83, 0x8A] = true := by decide
theorem test_encode_rgba : codes ⟨101, 100, 100, 254⟩ [0xFF, 0x65, 0x64, 0x64, 0xFE] = true := by decide
/-- E1: (0,0,0,0) matches the never-written slot 0. -/
theorem test_encode_index : codes ⟨0, 0, 0, 0⟩ [0x00] = true := by decide
/-- E2: the first-pixel fix-up, at 3 channels (R113's example). -/
theorem test_encode_fixup : after (step (encState false [0, 0, 0] 0 1 startPixel)) (fun t =>
    decide (t.runLen = 1 ∧ t.lookup 53 = startPixel ∧ t.bpos = 0)) = true := by decide
/-- V-S3: the 62nd repeat. -/
theorem test_encode_run_62 : after (step { encState false [0, 0, 0, 9, 9, 9] 1 2 ⟨9, 9, 9, 255⟩ with runLen := 61 }) (fun t =>
    decide (t.runLen = 0 ∧ t.encodedBytes = some [0xFD] ∧ t.cache = State.reset.cache)) = true := by decide
/-- R114's example: the flush byte, then the chunk. -/
theorem test_encode_flush : after (step { encState false [0, 0, 0, 10, 10, 10] 1 2 ⟨9, 9, 9, 255⟩ with runLen := 3 }) (fun t =>
    decide (t.runLen = 0 ∧ t.encodedBytes = some [0xC2, 0x7F])) = true := by decide
/-- V-N row N4. -/
theorem test_encode_close : after (step (encState true [] 0 0 startPixel)) (fun t =>
    decide (t.phase = .done ∧ t.encodedBytes = some [0, 0, 0, 0, 0, 0, 0, 1])) = true := by decide

/-! ### Commands, header, host -/

/-- E13. -/
theorem test_bad_param : after (step { State.reset with port := [.startEnc 5 2 []] }) (fun t =>
    decide (t.phase = .idle ∧ statusWord t = 0b100000)) = true := by decide
/-- R141's example. -/
theorem test_write_header : writeHeader ⟨2, 1, 4, 0⟩ = [0x71, 0x6F, 0x69, 0x66, 0, 0, 0, 2, 0, 0, 0, 1, 4, 0] := by decide
/-- R142 and conflict C6: channels 7 and colorspace 9 are accepted. -/
theorem test_read_header :
    (readHeader [0x71, 0x6F, 0x69, 0x66, 0, 0, 0, 2, 0, 0, 0, 1, 7, 9] = .ok ⟨2, 1, 7, 9⟩) ∧
    (readHeader [0x71, 0x6F, 0x69, 0x67, 0, 0, 0, 2, 0, 0, 0, 1, 4, 0] = .error .badMagic) ∧
    (readHeader [0x71] = .error .shortRead) := by decide

/-! ### The encoder of chunks and the interface of the host -/

/-- What the host asks: the table word of a chunk placed at reset runs as the first instruction. -/
theorem test_fetch_word : after (step (State.reset.withFetchWord 32 0x1E140AFE)) (fun t =>
    decide (t.prev = ⟨10, 20, 30, 255⟩ ∧ t.cnt = 1 ∧ t.bpos = 4)) = true := by decide

/-! ### Witnesses: a state and operands that meet each obligation's hypotheses -/

theorem witness_DecodeOfEncodedChunk : (Instr.run 61).wellFormed = true := by decide
theorem witness_EncodeOfDecodedChunk : decode [0xFF, 1, 2, 3, 4] = .ok (.rgba 1 2 3 4, []) := by decide
/-- Every clause at the ends of its range: no tag meets two of them. -/
theorem witness_EveryTagSelectsItsOperator :
    chunkOf 0x00 0 0 0 0 = .index 0 ∧ chunkOf 0x3F 0 0 0 0 = .index 63 ∧
    chunkOf 0x40 0 0 0 0 = .diff 0 0 0 ∧ chunkOf 0x7F 0 0 0 0 = .diff 3 3 3 ∧
    chunkOf 0x80 0x0F 0 0 0 = .luma 0 0 15 ∧ chunkOf 0xBF 0xF0 0 0 0 = .luma 63 15 0 ∧
    chunkOf 0xC0 0 0 0 0 = .run 0 ∧ chunkOf 0xFD 0 0 0 0 = .run 61 ∧
    chunkOf 0xFE 1 2 3 4 = .rgb 1 2 3 ∧ chunkOf 0xFF 1 2 3 4 = .rgba 1 2 3 4 := by decide
theorem witness_HashNeedsOnlyLowSixBits : ((65 : Byte).setWidth 6 = (1 : Byte).setWidth 6) ∧
    ((128 : Byte).setWidth 6 = (0 : Byte).setWidth 6) ∧ ((255 : Byte).setWidth 6 = (63 : Byte).setWidth 6) := by decide
/-- DIFF at its upper edge; LUMA at its lower edge on all three channels. -/
theorem witness_StoredDeltasDecodeBack :
    (inDiff (sub8 1 0) = true ∧ inDiff (sub8 0 2) = true) ∧
    (inLumaG (sub8 68 100) = true ∧ inLumaRB (sub8 (sub8 60 100) (sub8 68 100)) = true) := by decide
theorem witness_StepRunsDecodedChunk : ∃ (s : State) (i : Instr) (rest : List Byte), s.phase = .body ∧ s.mode = .dec ∧
    s.cnt ≠ s.npix ∧ decode (s.decIn.drop s.bpos) = .ok (i, rest) ∧ s.port = [] :=
  ⟨decState [0xFE, 1, 2, 3] 1 startPixel, .rgb 1 2 3, [], by decide⟩
theorem witness_StepRunsDecodedChunk_quiet : ∃ (s : State) (i : Instr) (rest : List Byte), s.phase = .body ∧ s.mode = .dec ∧
    s.cnt ≠ s.npix ∧ decode (s.decIn.drop s.bpos) = .ok (i, rest) ∧ s.port = [.quiet] :=
  ⟨{ decState [0xC0] 1 startPixel with port := [.quiet] }, .run 0, [], by decide⟩
theorem witness_RgbCommitsSamples : ∃ s : State, s.bpos + 4 ≤ s.decIn.length ∧ s.cnt < s.npix :=
  ⟨decState [0xFE, 1, 2, 3] 1 startPixel, by decide⟩
theorem witness_RgbaCommitsSamples : ∃ s : State, s.bpos + 5 ≤ s.decIn.length ∧ s.cnt < s.npix :=
  ⟨decState [0xFF, 1, 2, 3, 4] 1 startPixel, by decide⟩
theorem witness_IndexCommitsSlot : ∃ s : State, s.cnt < s.npix := ⟨decState [0x35] 1 startPixel, by decide⟩
theorem witness_DiffCommitsDeltas : ∃ s : State, s.cnt < s.npix := ⟨decState [0x7A] 1 startPixel, by decide⟩
theorem witness_LumaCommitsDeltas : ∃ s : State, s.bpos + 2 ≤ s.decIn.length ∧ s.cnt < s.npix :=
  ⟨decState [0x80, 0] 1 startPixel, by decide⟩
/-- The longest run, with room for all of it and with room for one pixel alone. -/
theorem witness_RunRepeatsPrev : ((61 : BitVec 6).toNat ≤ 61) ∧
    (decState [0xFD] 62 startPixel).cnt < (decState [0xFD] 62 startPixel).npix ∧
    (decState [0xFD] 1 startPixel).cnt < (decState [0xFD] 1 startPixel).npix := by decide
/-- The other clause of the three operators that have trailing bytes: one byte short. -/
theorem witness_cut_clauses :
    (decState [0xFE, 1, 2] 1 startPixel).decIn.length < (decState [0xFE, 1, 2] 1 startPixel).bpos + 4 ∧
    (decState [0xFF, 1, 2, 3] 1 startPixel).decIn.length < (decState [0xFF, 1, 2, 3] 1 startPixel).bpos + 5 ∧
    (decState [0x80] 1 startPixel).decIn.length < (decState [0x80] 1 startPixel).bpos + 2 := by decide
theorem witness_StepOnCutChunkTruncates : ∃ (s cut : State) (e : DecodeError), NoCommand s ∧ s.phase = .body ∧
    s.mode = .dec ∧ s.cnt < s.npix ∧ s.bpos < s.decIn.length ∧ decode (s.decIn.drop s.bpos) = .error e ∧
    cut = { s with port := s.port.tail, status := { s.status with trunc := true }, bpos := s.decIn.length } ∧
    NoCommand cut :=
  ⟨decState [0xFE, 1, 2] 1 startPixel, _, .cutRgb, .inl rfl, by decide, by decide, by decide, by decide, by decide, rfl,
    .inl rfl⟩
/-- The same with a quiet entry for each of the two steps. -/
theorem witness_StepOnCutChunkTruncates_quiet : ∃ (s cut : State) (e : DecodeError), NoCommand s ∧ s.phase = .body ∧
    s.mode = .dec ∧ s.cnt < s.npix ∧ s.bpos < s.decIn.length ∧ decode (s.decIn.drop s.bpos) = .error e ∧
    cut = { s with port := s.port.tail, status := { s.status with trunc := true }, bpos := s.decIn.length } ∧
    NoCommand cut :=
  ⟨{ decState [0xBF] 1 startPixel with port := [.quiet, .quiet] }, _, .cutLuma, .inr ⟨_, rfl⟩, by decide, by decide,
    by decide, by decide, by decide, rfl, .inr ⟨_, rfl⟩⟩
/-- Both ways into the closing step, with the marker found and not. -/
theorem witness_ClosingStepReports :
    (∃ s : State, NoCommand s ∧ s.phase = .body ∧ s.mode = .dec ∧ s.cnt = s.npix ∧
      (s.bpos + 8 ≤ s.decIn.length ∧ (s.decIn.drop s.bpos).take 8 = [0, 0, 0, 0, 0, 0, 0, 1])) ∧
    (∃ s : State, NoCommand s ∧ s.phase = .body ∧ s.mode = .dec ∧ s.decIn.length ≤ s.bpos ∧
      ¬(s.bpos + 8 ≤ s.decIn.length ∧ (s.decIn.drop s.bpos).take 8 = [0, 0, 0, 0, 0, 0, 0, 1])) :=
  ⟨⟨decState [0, 0, 0, 0, 0, 0, 0, 1] 0 startPixel, .inl rfl, by decide⟩,
    ⟨{ decState [] 3 startPixel with port := [.quiet] }, .inr ⟨[], rfl⟩, by decide⟩⟩
theorem witness_StopsOutsideTheSpec : 61 < (62 : BitVec 6).toNat ∧
    ((decState [0x00] 0 startPixel).npix ≤ (decState [0x00] 0 startPixel).cnt ∧ (Instr.index 0).wellFormed = true ∧
      (decState [0x00] 0 startPixel).bpos + (Instr.index 0).length ≤ (decState [0x00] 0 startPixel).decIn.length) := by decide
theorem witness_InPixelReadsSamples :
    ((encState true [1, 2, 3, 4] 0 1 startPixel).cnt < (encState true [1, 2, 3, 4] 0 1 startPixel).npix ∧
      (encState true [1, 2, 3, 4] 0 1 startPixel).encIn.drop (4 * 0) = 1 :: 2 :: 3 :: 4 :: []) ∧
    (encState false [9, 9, 9, 1, 2, 3] 1 2 startPixel).encIn.drop (3 * 1) = 1 :: 2 :: 3 :: [] := by decide
/-- A first pixel, a later one, and the 62nd of a run, that one with a quiet entry and a command after it at the port. -/
theorem witness_EqualPixelContinuesRun :
    EncodesNext (encState false [0, 0, 0] 0 1 startPixel) startPixel ∧
    EncodesNext (encState false [0, 0, 0, 0, 0, 0] 1 2 startPixel) startPixel ∧
    EncodesNext { encState false [0, 0, 0, 0, 0, 0] 1 2 startPixel with runLen := 61, port := [.quiet, .abort] }
      startPixel := by
  refine ⟨?_, ?_, ?_⟩
  · exact ⟨.inl rfl, rfl, rfl, by decide, by decide⟩
  · exact ⟨.inl rfl, rfl, rfl, by decide, by decide⟩
  · exact ⟨.inr ⟨[.abort], rfl⟩, rfl, rfl, by decide, by decide⟩
theorem witness_HeldPixelCodesIndex : ∃ (s : State) (curr : Pixel), EncodesNext s curr ∧ curr ≠ s.prev ∧
    s.lookup (cacheIndex curr) = curr :=
  ⟨encState true [0, 0, 0, 0] 0 1 startPixel, zeroPixel, ⟨.inl rfl, rfl, rfl, by decide, by decide⟩, by decide, by decide⟩
theorem witness_ChangedAlphaCodesRgba : ∃ (s : State) (curr : Pixel), EncodesNext s curr ∧ curr ≠ s.prev ∧
    s.lookup (cacheIndex curr) ≠ curr ∧ s.hasAlpha = true ∧ curr.a ≠ s.prev.a :=
  ⟨encState true [1, 2, 3, 128] 0 1 startPixel, ⟨1, 2, 3, 128⟩, ⟨.inl rfl, rfl, rfl, by decide, by decide⟩, by decide, by decide,
    by decide, by decide⟩
/-- V-E row (−2, −2, −2): the lower edge. -/
theorem witness_SmallDeltaCodesDiff : ∃ (s : State) (curr : Pixel), EncodesNext s curr ∧ curr ≠ s.prev ∧
    s.lookup (cacheIndex curr) ≠ curr ∧ (s.hasAlpha = false ∨ curr.a = s.prev.a) ∧
    curr.r - s.prev.r + 2 ≤ 3 ∧ curr.g - s.prev.g + 2 ≤ 3 ∧ curr.b - s.prev.b + 2 ≤ 3 :=
  ⟨encState false [98, 98, 98] 0 1 ⟨100, 100, 100, 255⟩, ⟨98, 98, 98, 255⟩, ⟨.inl rfl, rfl, rfl, by decide, by decide⟩, by decide,
    by decide, by decide, by decide⟩
/-- V-E row (38, 31, 38): the upper edge of all three. -/
theorem witness_MediumDeltaCodesLuma : ∃ (s : State) (curr : Pixel), EncodesNext s curr ∧ curr ≠ s.prev ∧
    s.lookup (cacheIndex curr) ≠ curr ∧ (s.hasAlpha = false ∨ curr.a = s.prev.a) ∧
    ¬(curr.r - s.prev.r + 2 ≤ 3 ∧ curr.g - s.prev.g + 2 ≤ 3 ∧ curr.b - s.prev.b + 2 ≤ 3) ∧
    curr.g - s.prev.g + 32 ≤ 63 ∧ (curr.r - s.prev.r - (curr.g - s.prev.g)) + 8 ≤ 15 ∧
    (curr.b - s.prev.b - (curr.g - s.prev.g)) + 8 ≤ 15 :=
  ⟨encState false [138, 131, 138] 0 1 ⟨100, 100, 100, 255⟩, ⟨138, 131, 138, 255⟩, ⟨.inl rfl, rfl, rfl, by decide, by decide⟩,
    by decide, by decide, by decide, by decide⟩
/-- V-E row (39, 31, 38): one past that edge. -/
theorem witness_OtherPixelCodesRgb : ∃ (s : State) (curr : Pixel), EncodesNext s curr ∧ curr ≠ s.prev ∧
    s.lookup (cacheIndex curr) ≠ curr ∧ (s.hasAlpha = false ∨ curr.a = s.prev.a) ∧
    ¬(curr.r - s.prev.r + 2 ≤ 3 ∧ curr.g - s.prev.g + 2 ≤ 3 ∧ curr.b - s.prev.b + 2 ≤ 3) ∧
    ¬(curr.g - s.prev.g + 32 ≤ 63 ∧ (curr.r - s.prev.r - (curr.g - s.prev.g)) + 8 ≤ 15 ∧
      (curr.b - s.prev.b - (curr.g - s.prev.g)) + 8 ≤ 15) :=
  ⟨encState false [139, 131, 138] 0 1 ⟨100, 100, 100, 255⟩, ⟨139, 131, 138, 255⟩, ⟨.inl rfl, rfl, rfl, by decide, by decide⟩,
    by decide, by decide, by decide, by decide⟩
/-- At an empty port without a run pending, and at a quiet entry with one. -/
theorem witness_EncodeCloseEmitsMarker : ∃ s s' : State,
    (NoCommand s ∧ s.phase = .body ∧ s.mode = .enc ∧ s.cnt = s.npix ∧ s.runLen = 0) ∧
    (NoCommand s' ∧ s'.phase = .body ∧ s'.mode = .enc ∧ s'.cnt = s'.npix ∧ s'.runLen = 5) :=
  ⟨encState true [] 0 0 startPixel, { encState true [] 5 5 startPixel with runLen := 5, port := [.quiet] },
    ⟨.inl rfl, by decide⟩, ⟨.inr ⟨[], rfl⟩, by decide⟩⟩
theorem witness_MissingInputWaitsForAbort : ∃ s s' : State,
    (s.phase = .body ∧ s.mode = .enc ∧ s.cnt < s.npix ∧
      s.encIn.length < (if s.hasAlpha then 4 else 3) * (s.cnt.toNat + 1) ∧ s.port = [.quiet]) ∧
    (s'.phase = .body ∧ s'.mode = .enc ∧ s'.cnt < s'.npix ∧
      s'.encIn.length < (if s'.hasAlpha then 4 else 3) * (s'.cnt.toNat + 1) ∧ s'.port = [.abort]) :=
  ⟨{ encState true [1, 2, 3] 0 1 startPixel with port := [.quiet] }, { encState false [1, 2] 0 1 startPixel with port := [.abort] }, by decide⟩
theorem witness_StartDecBeginsStream : ∃ s : State, s.port = [.startDec 3 [1]] ∧ s.phase ≠ .body :=
  ⟨{ State.reset with port := [.startDec 3 [1]] }, by decide⟩
theorem witness_StartEncBeginsStream : ∃ s : State, s.port = [.startEnc 1 3 [1, 2, 3]] ∧ s.phase ≠ .body :=
  ⟨{ State.reset with port := [.startEnc 1 3 [1, 2, 3]], phase := .done }, by decide⟩
theorem witness_OtherChannelCountsRefused : ∃ s : State, s.port = [.startEnc 5 2 []] ∧ s.phase ≠ .body :=
  ⟨{ State.reset with port := [.startEnc 5 2 []] }, by decide⟩
theorem witness_StartIgnoredWhileBusy : ∃ s s' : State,
    (s.phase = .body ∧ s.port = [.startDec 1 []]) ∧ (s'.phase = .body ∧ s'.port = [.startEnc 1 4 []]) :=
  ⟨{ decState [] 1 startPixel with port := [.startDec 1 []] }, { decState [] 1 startPixel with port := [.startEnc 1 4 []] },
    by decide⟩
theorem witness_AbortAndResetClearRegisters : ∃ s s' : State, s.port = [.abort] ∧ s'.port = [.hardReset] :=
  ⟨{ decState [] 1 startPixel with port := [.abort] }, { decState [] 1 startPixel with port := [.hardReset] }, rfl, rfl⟩
theorem witness_IdleAndDoneRetainState : ∃ s s' : State,
    (s.phase ≠ .body ∧ s.port = []) ∧ (s'.phase ≠ .body ∧ s'.port = [.quiet]) :=
  ⟨State.reset, { State.reset with port := [.quiet], phase := .done }, by decide⟩
/-- Two machines with different pasts, the same START, and the two states after it. -/
theorem witness_PastIsUnobservableAfterStart : ∃ s₁ s₂ t₁ t₂ : State, s₁ ≠ s₂ ∧ s₁.phase ≠ .body ∧ s₂.phase ≠ .body ∧
    s₁.port = s₂.port ∧ s₁.port = [.startDec 1 [0xC0]] ∧
    Host.Core.run core 1 s₁ = .next t₁ ∧ Host.Core.run core 1 s₂ = .next t₂ :=
  ⟨{ State.reset with port := [.startDec 1 [0xC0]] },
    { State.reset with port := [.startDec 1 [0xC0]], prev := zeroPixel, phase := .done }, _, _, by decide, by decide,
    by decide, rfl, rfl, rfl, rfl⟩
theorem witness_PastIsUnobservableAfterStart_enc : ∃ s₁ s₂ t₁ t₂ : State, s₁ ≠ s₂ ∧ s₁.phase ≠ .body ∧ s₂.phase ≠ .body ∧
    s₁.port = s₂.port ∧ s₁.port = [.startEnc 1 4 [1, 2, 3, 4]] ∧
    Host.Core.run core 1 s₁ = .next t₁ ∧ Host.Core.run core 1 s₂ = .next t₂ :=
  ⟨{ State.reset with port := [.startEnc 1 4 [1, 2, 3, 4]] },
    { State.reset with port := [.startEnc 1 4 [1, 2, 3, 4]], prev := zeroPixel, phase := .done }, _, _, by decide, by decide,
    by decide, rfl, rfl, rfl, rfl⟩

/-- A decode of no pixels that has just ended meets the invariant. -/
theorem witness_PseInv : PseInv { State.reset with phase := .done } where
  canonical := ⟨rfl, rfl⟩
  cache := cacheInv_zeroed _ rfl
  count := by decide
  pending := by decide
  decoderUnused := fun _ => ⟨rfl, rfl⟩
  cursor := fun _ => Nat.le_refl 0
  opaqueAlpha := by decide
  idle := by decide
  closingFlags := by decide
  truncated := by decide
  underfilled := by decide
  encodeDone := by decide
  decoded := fun _ _ a => by
    have h : Memory.read { State.reset with phase := .done }.decOut a = none := rfl
    rw [h]
    simp [State.reset]
  encoded := fun h => absurd h (by decide)

/-- So does every decode that has just started. -/
theorem pseInv_decState (bytes : List Byte) (n : Count) : PseInv (decState bytes n startPixel) where
  canonical := ⟨rfl, rfl⟩
  cache := cacheInv_zeroed _ rfl
  count := by simp [decState, State.reset, BitVec.le_def]
  pending := by simp [decState, State.reset]
  decoderUnused := fun _ => ⟨rfl, rfl⟩
  cursor := fun _ => Nat.zero_le _
  opaqueAlpha := fun h => absurd h (by simp [decState, State.reset])
  idle := fun h => absurd h (by simp [decState])
  closingFlags := fun _ => ⟨rfl, rfl⟩
  truncated := fun h => absurd h (by simp [decState, State.reset])
  underfilled := fun h => absurd h (by simp [decState])
  encodeDone := fun h => absurd h (by simp [decState])
  decoded := fun _ _ a => by
    have h : (decState bytes n startPixel).decOut.read a = none := rfl
    rw [h]
    simp [decState, State.reset]
  encoded := fun h => absurd h (by simp [decState, State.reset])

theorem witness_StepKeepsPseInv : ∃ s t : State, PseInv s ∧ step s = .next t :=
  ⟨_, _, pseInv_decState [0xC0] 1, rfl⟩
theorem witness_StepAlwaysAnswers : ∃ s : State, PseInv s := ⟨_, pseInv_decState [0xFE] 1⟩
theorem witness_StepKeepsCacheInv : ∃ s t : State, CacheInv s ∧ step s = .next t :=
  ⟨decState [0xC0] 1 startPixel, _, cacheInv_zeroed _ rfl, rfl⟩
/-- The closing step of a decode with no byte and one pixel missing. -/
theorem witness_FlagSetsOfADecode : ∃ s t : State, PseInv s ∧ step s = .next t ∧ t.phase = .done ∧ t.mode = .dec :=
  ⟨_, _, pseInv_decState [] 1, rfl, rfl, rfl⟩
/-- A step with each sticky flag set: TRUNC before the closing step, the other two after it. -/
theorem witness_FlagsAreSticky :
    (∃ s t : State, PseStep s t ∧ s.status.trunc = true) ∧
    (∃ s t : State, PseStep s t ∧ s.status.underfill = true ∧ s.status.trailerBad = true) :=
  ⟨⟨{ decState [] 1 startPixel with status := ⟨true, false, false, false⟩ }, _, ⟨.inl rfl, rfl⟩, rfl⟩,
    ⟨{ State.reset with phase := .done, status := ⟨false, true, true, false⟩, port := [.quiet, .abort] }, _,
      ⟨.inr ⟨[.abort], rfl⟩, rfl⟩, rfl, rfl⟩⟩
theorem witness_CursorAndCountOnlyGrow : ∃ s t : State, PseInv s ∧ PseStep s t ∧ s.mode = .dec ∧ t.phase = .body :=
  ⟨_, _, pseInv_decState [0xC0] 1, ⟨.inl rfl, rfl⟩, rfl, rfl⟩
theorem witness_StepsKeepArgumentsAndInputs :
    (∃ s t : State, PseStep s t ∧ s.mode = .dec) ∧ (∃ s t : State, PseStep s t ∧ s.mode = .enc) :=
  ⟨⟨decState [0xC0] 1 startPixel, _, ⟨.inl rfl, rfl⟩, rfl⟩, ⟨encState true [] 0 0 startPixel, _, ⟨.inl rfl, rfl⟩, rfl⟩⟩
theorem witness_EncoderRaisesNothing : ∃ s t : State, PseStep s t ∧ s.mode = .enc :=
  ⟨encState false [1, 2, 3] 0 1 startPixel, _, ⟨.inl rfl, rfl⟩, rfl⟩
/-- A body of two chunks whose last one is needed, and the empty body. -/
theorem witness_CompleteStreamDecodesClean :
    ((∀ i ∈ [Instr.rgb 10 20 30, Instr.run 0], i.wellFormed = true) ∧
      (2 : Count).toNat ≤ ([Instr.rgb 10 20 30, Instr.run 0].map pixelsOf).sum ∧
      (([Instr.rgb 10 20 30, Instr.run 0].dropLast).map pixelsOf).sum < (2 : Count).toNat) ∧
    ((0 : Count).toNat ≤ (([] : List Instr).map pixelsOf).sum) := by decide
theorem witness_EveryEncodeFinishes : 3 * (2 : Count).toNat ≤ [10, 20, 30, 10, 20, (30 : Byte)].length := by decide
theorem witness_EncodedStreamDecodesClean : 4 * (1 : Count).toNat ≤ [10, 20, 30, (40 : Byte)].length := by decide
theorem witness_RoundTripUnderCriterion :
    inputPixels 3 [10, 20, 30, 10, 20, 30] 2 = some [⟨10, 20, 30, 255⟩, ⟨10, 20, 30, 255⟩] ∧
    roundTrips [⟨10, 20, 30, 255⟩, ⟨10, 20, 30, 255⟩] = true ∧
    roundTrips [⟨0, 0, 0, 255⟩, ⟨15, 1, 2, 255⟩, ⟨0, 0, 0, 255⟩] = true := by decide
/-- Program P6. -/
theorem witness_RoundTripFailsOtherwise :
    inputPixels 3 [0, 0, 0, 1, 1, 1, 0, 0, 0] 3 = some [⟨0, 0, 0, 255⟩, ⟨1, 1, 1, 255⟩, ⟨0, 0, 0, 255⟩] ∧
    roundTrips [⟨0, 0, 0, 255⟩, ⟨1, 1, 1, 255⟩, ⟨0, 0, 0, 255⟩] = false := by decide
theorem witness_HostStartsDecode :
    (readHeader [0x71, 0x6F, 0x69, 0x66, 0, 0, 0, 2, 0, 0, 0, 1, 4, 0] = .ok ⟨2, 1, 4, 0⟩) ∧
    (readHeader [0x71, 0x6F] = .error .shortRead) := by decide

end Sys2Proof.Tests
end

section
/-! SUPPORT. Rules about the commands, the PSE's step and its frame, for the statements about states and steps
(10_state.md). -/

namespace Sys2Proof.Machine

/-! ### The commands -/

theorem startDec_accepted {s : State} (h : s.phase ≠ .body) (n : Count) (source : List Byte) :
    s.startDec n source = { s.streamStart .dec n false with decIn := source, decOut := Memory.empty } := if_neg h

theorem startDec_busy {s : State} (h : s.phase = .body) (n : Count) (source : List Byte) :
    s.startDec n source = s := if_pos h

theorem startEnc_accepted {s : State} (h : s.phase ≠ .body) (n : Count) {channels : Nat}
    (hc : channels = 3 ∨ channels = 4) (samples : List Byte) :
    s.startEnc n channels samples =
      { s.streamStart .enc n (decide (channels = 4)) with encIn := samples, encOut := Memory.empty } := by
  rw [State.startEnc, if_neg h, if_pos hc]

theorem startEnc_refused {s : State} (h : s.phase ≠ .body) (n : Count) {channels : Nat}
    (hc : ¬(channels = 3 ∨ channels = 4)) (samples : List Byte) :
    s.startEnc n channels samples = s.raise .badParam := by
  rw [State.startEnc, if_neg h, if_neg hc]

theorem startEnc_busy {s : State} (h : s.phase = .body) (n : Count) (channels : Nat) (samples : List Byte) :
    s.startEnc n channels samples = s := if_pos h

/-! ### What a decode step can do -/

theorem length_pos (i : Instr) : 1 ≤ i.length := by cases i <;> simp [Instr.length]

/-- The end marker stands at BPOS (R99). -/
def State.markerFound (s : State) : Bool :=
  decide (s.bpos + 8 ≤ s.decIn.length ∧ (s.decIn.drop s.bpos).take 8 = endMarker)

/-- The closing step of a decode as one record update (R99). -/
theorem decodeClose_record (s : State) :
    s.decodeClose = { s with
      phase := .done
      bpos := if s.markerFound then s.bpos + 8 else min (s.bpos + 8) s.decIn.length
      status := { s.status with
        underfill := s.status.underfill || decide (s.cnt < s.npix)
        trailerBad := s.status.trailerBad || !s.markerFound } } :=
  decodeClose_eq s s.markerFound decide_eq_true_iff

theorem bpos_le_of_markerFound {s : State} (h : s.markerFound = true) : s.bpos + 8 ≤ s.decIn.length :=
  (decide_eq_true_iff.1 h).1

/-- The state after a chunk of `n` bytes that outputs `p` `k` times, having written it to the cache or not (R95). -/
def State.afterChunk (s : State) (cached : Bool) (n : Nat) (p : Pixel) (k : Nat) : State :=
  (((bif cached then s.update p else s).advance n).outPixels p k).setPrev p

/-- A decode step closes, raises TruncatedStream on a cut chunk, or outputs the pixels of a whole one (R85, R94, R95). -/
theorem decodeStep_outcomes {s t : State} (h : s.decodeStep = .next t) :
    ((s.cnt = s.npix ∨ s.decIn.length ≤ s.bpos) ∧ t = s.decodeClose) ∨
    (s.cnt ≠ s.npix ∧ s.bpos < s.decIn.length ∧ t = s.raise .truncatedStream) ∨
    ∃ (cached : Bool) (n : Nat) (p : Pixel) (k : Nat), 1 ≤ n ∧ s.bpos + n ≤ s.decIn.length ∧
      s.cnt.toNat + k ≤ s.npix.toNat ∧ t = s.afterChunk cached n p k := by
  rcases decodeStep_cases h with hclose | ⟨hn, hb, he⟩
  · exact .inl hclose
  · rcases exec_next_cases he with ⟨-, -, ht⟩ | ⟨p, k, cached, -, hk, hl, ht⟩
    · exact .inr (.inl ⟨hn, hb, ht⟩)
    · exact .inr (.inr ⟨cached, s.fetchChunk.length, p, k, length_pos _, by omega, hk, ht⟩)

/-- A chunk's pixels change the cache, PREV, BPOS, CNT and DEC_OUT at most. -/
theorem afterChunk_rest (s : State) (cached : Bool) (n : Nat) (p : Pixel) (k : Nat) :
    s.afterChunk cached n p k = { s with
      cache := (s.afterChunk cached n p k).cache, prev := p, bpos := s.bpos + n, cnt := s.cnt + BitVec.ofNat 64 k,
      decOut := (s.afterChunk cached n p k).decOut } := by
  unfold State.afterChunk
  rw [outPixels_rest]
  cases cached <;> rfl

theorem afterChunk_cnt_toNat {s : State} (cached : Bool) (n : Nat) (p : Pixel) {k : Nat}
    (hk : s.cnt.toNat + k ≤ s.npix.toNat) : (s.afterChunk cached n p k).cnt.toNat = s.cnt.toNat + k := by
  cases cached <;> exact outPixels_cnt_toNat _ p k hk

theorem cacheInv_afterChunk {s : State} (h : CacheInv s) (cached : Bool) (n : Nat) (p : Pixel) (k : Nat) :
    CacheInv (s.afterChunk cached n p k) := by
  cases cached
  · exact cacheInv_congr (by simp [State.afterChunk]) h
  · exact cacheInv_congr (s := s.update p) (by simp [State.afterChunk]) (cacheInv_update h p)

/-- A decode step writes no space but DEC_OUT and no register but the cache, PREV, BPOS, CNT, PHASE and STATUS. -/
theorem decodeStep_rest {s t : State} (h : s.decodeStep = .next t) :
    t = { s with
      cache := t.cache, prev := t.prev, bpos := t.bpos, cnt := t.cnt, phase := t.phase, status := t.status,
      decOut := t.decOut } := by
  rcases decodeStep_outcomes h with ⟨-, rfl⟩ | ⟨-, -, rfl⟩ | ⟨cached, n, p, k, -, -, -, rfl⟩
  · rw [decodeClose_record]
  · rfl
  · rw [afterChunk_rest]

/-! ### What an encode step can do -/

/-- From `s` to `t` some bytes are written to ENC_OUT from BPOS on, and BPOS moves past them (R35). -/
def WritesStream (s t : State) : Prop :=
  ∃ bs : List Byte, t.encOut = s.encOut.writeBytes s.bpos bs ∧ t.bpos = s.bpos + bs.length

theorem WritesStream.of_same {s t : State} (ho : t.encOut = s.encOut) (hb : t.bpos = s.bpos) : WritesStream s t :=
  ⟨[], ho, hb⟩

theorem writeBytes_append (m : Memory) (a : Nat) (xs ys : List Byte) :
    m.writeBytes a (xs ++ ys) = (m.writeBytes a xs).writeBytes (a + xs.length) ys := by
  induction xs generalizing m a with
  | nil => rfl
  | cons v rest ih =>
    have hend : a + 1 + rest.length = a + (rest.length + 1) := by omega
    simp only [List.cons_append, Memory.writeBytes, ih, List.length_cons, hend]

theorem WritesStream.trans {s t u : State} (h1 : WritesStream s t) (h2 : WritesStream t u) : WritesStream s u := by
  obtain ⟨xs, ho1, hb1⟩ := h1
  obtain ⟨ys, ho2, hb2⟩ := h2
  exact ⟨xs ++ ys, by rw [writeBytes_append, ho2, ho1, hb1], by rw [hb2, hb1, List.length_append]; omega⟩

theorem writesStream_outBytes (s : State) (bs : List Byte) : WritesStream s (s.outBytes bs) := ⟨bs, rfl, rfl⟩

theorem writesStream_flushRun (s : State) : WritesStream s s.flushRun := by
  unfold State.flushRun
  split
  · exact .of_same rfl rfl
  · exact writesStream_outBytes s _

theorem writesStream_continueRun (s : State) (p : Pixel) : WritesStream s (s.continueRun p) := by
  have hc : WritesStream s s.countRun := by
    unfold State.countRun
    split
    · exact writesStream_outBytes s _
    · exact .of_same rfl rfl
  exact hc.trans (.of_same (firstPixelFixup_encOut _ p) (firstPixelFixup_bpos _ p))

theorem writesStream_selectChunk (s : State) (p : Pixel) : WritesStream s (s.selectChunk p) := by
  rcases selectChunk_cases s p with ⟨-, e⟩ | ⟨-, e⟩ <;> rw [e]
  · exact writesStream_outBytes s _
  · exact writesStream_outBytes (s.update p) _

theorem writesStream_encodePixel (s : State) (p : Pixel) : WritesStream s (s.encodePixel p) := by
  unfold State.encodePixel
  split
  · exact writesStream_continueRun s p
  · exact (writesStream_flushRun s).trans (writesStream_selectChunk s.flushRun p)

theorem writesStream_encodeClose (s : State) : WritesStream s s.encodeClose :=
  (writesStream_flushRun s).trans (writesStream_outBytes s.flushRun endMarker)

theorem encodeClose_rest (s : State) :
    s.encodeClose = { s with phase := .done, runLen := 0, bpos := s.encodeClose.bpos, encOut := s.encodeClose.encOut } := by
  unfold State.encodeClose
  rw [flushRun_rest]
  rfl

/-- An encode step writes no space but ENC_OUT and no register but the cache, PREV, BPOS, CNT, RUNLEN and PHASE. -/
theorem encodeStep_rest {s t : State} (h : s.encodeStep = .next t) :
    t = { s with
      cache := t.cache, prev := t.prev, bpos := t.bpos, cnt := t.cnt, runLen := t.runLen, phase := t.phase,
      encOut := t.encOut } := by
  rcases encodeStep_cases h with ⟨-, rfl⟩ | ⟨-, rfl⟩ | ⟨curr, -, rfl⟩
  · rw [encodeClose_rest]
  · rfl
  · rw [encodePixel_rest]

/-- What an encode step writes to ENC_OUT, whichever of its forms it takes. -/
theorem writesStream_encodeStep {s t : State} (h : s.encodeStep = .next t) : WritesStream s t := by
  rcases encodeStep_cases h with ⟨-, rfl⟩ | ⟨-, rfl⟩ | ⟨curr, -, rfl⟩
  · exact writesStream_encodeClose s
  · exact .of_same rfl rfl
  · exact writesStream_encodePixel s curr

/-! ### The PSE's own step -/

/-- A step of the PSE starts from the state with a quiet entry taken off the port. -/
theorem PseStep.runPse {s t : State} (h : PseStep s t) : ({ s with port := s.port.tail } : State).runPse = .next t := by
  rw [← step_of_noCommand h.1]
  exact h.2

theorem runPse_mode {s t : State} (h : s.runPse = .next t) : t.mode = s.mode := by
  rcases runPse_cases h with ⟨-, rfl⟩ | ⟨-, -, hd⟩ | ⟨-, -, he⟩
  · rfl
  · rw [decodeStep_rest hd]
  · rw [encodeStep_rest he]

end Sys2Proof.Machine
end

section
/-! The statements about single commands and single steps (10_state.md R13 to R24). -/

namespace Sys2Proof.Machine

/-- Settles O30: the reset state is a literal; the cache is the constant vector. -/
theorem resetValues : Obligations.ResetValues := by
  unfold Obligations.ResetValues
  exact ⟨rfl, lookup_zeroed _ rfl, rfl, rfl, rfl, rfl, rfl, rfl, rfl, rfl, rfl, rfl⟩

/-- Settles O31: the step is the command, and the command is accepted. -/
theorem startDecBeginsStream : Obligations.StartDecBeginsStream := by
  intro s n source more hport hphase
  have haccept := startDec_accepted (s := { s with port := more }) hphase n source
  exact ⟨_, step_of_command hport (congrArg some haccept), rfl, rfl, rfl, rfl, rfl, lookup_zeroed _ rfl, rfl, rfl, rfl,
    rfl, rfl, rfl, rfl, read_empty, rfl, rfl, rfl⟩

/-- Settles O32: the step is the command, and the command is accepted. -/
theorem startEncBeginsStream : Obligations.StartEncBeginsStream := by
  intro s n channels samples more hport hphase hchannels
  have haccept := startEnc_accepted (s := { s with port := more }) hphase n hchannels samples
  exact ⟨_, step_of_command hport (congrArg some haccept), rfl, rfl, rfl, decide_eq_true_iff, rfl, lookup_zeroed _ rfl,
    rfl, rfl, rfl, rfl, rfl, rfl, rfl, read_empty, rfl, rfl, rfl⟩

/-- Settles O34: a START in BODY takes its boundary and changes nothing else. -/
theorem startIgnoredWhileBusy : Obligations.StartIgnoredWhileBusy := by
  intro s n source samples channels more hbody
  constructor
  · intro hport
    exact step_of_command hport (congrArg some (startDec_busy (s := { s with port := more }) hbody n source))
  · intro hport
    exact step_of_command hport (congrArg some (startEnc_busy (s := { s with port := more }) hbody n channels samples))

/-- Settles O35: both events have the effect of `State.resetRegisters`. -/
theorem abortAndResetClearRegisters : Obligations.AbortAndResetClearRegisters := by
  rintro s more (hport | hport)
  · exact step_of_command hport rfl
  · exact step_of_command hport rfl

/-- Settles O36: outside BODY the PSE's step answers the state it was given. -/
theorem idleAndDoneRetainState : Obligations.IdleAndDoneRetainState := by
  intro s hphase
  constructor
  · intro hport
    rw [step_of_empty_port hport, runPse_still hphase]
  · intro more hport
    rw [step_of_quiet_port hport]
    exact runPse_still hphase

/-- Settles O43: a decode step adds at most the flag of the condition it takes, and an encode step keeps STATUS. -/
theorem flagsAreSticky : Obligations.FlagsAreSticky := by
  intro s t hstep
  rcases runPse_cases hstep.runPse with ⟨-, rfl⟩ | ⟨-, -, hdec⟩ | ⟨-, -, henc⟩
  · exact ⟨id, id, id, rfl⟩
  · rcases decodeStep_outcomes hdec with ⟨-, rfl⟩ | ⟨-, -, rfl⟩ | ⟨cached, n, p, k, -, -, -, rfl⟩
    · rw [decodeClose_record]
      exact ⟨id, fun h => by simp [h], fun h => by simp [h], rfl⟩
    · exact ⟨fun _ => rfl, id, id, rfl⟩
    · rw [afterChunk_rest]
      exact ⟨id, id, id, rfl⟩
  · rw [encodeStep_rest henc]
    exact ⟨id, id, id, rfl⟩

/-- A decode step moves BPOS on by its bytes, to the end of the source or past the marker, and CNT by its pixels. -/
theorem decodeStep_grows {s t : State} (hcursor : s.bpos ≤ s.decIn.length) (h : s.decodeStep = .next t) :
    s.bpos ≤ t.bpos ∧ s.cnt ≤ t.cnt ∧ (t.phase = .body → s.bpos < t.bpos) := by
  rcases decodeStep_outcomes h with ⟨-, rfl⟩ | ⟨-, hb, rfl⟩ | ⟨cached, n, p, k, hn, -, hk, rfl⟩
  · rw [decodeClose_record]
    refine ⟨?_, BitVec.le_refl _, nofun⟩
    dsimp only
    split <;> omega
  · exact ⟨hcursor, BitVec.le_refl _, fun _ => hb⟩
  · have hbpos : (s.afterChunk cached n p k).bpos = s.bpos + n := by rw [afterChunk_rest]
    have hcnt := afterChunk_cnt_toNat cached n p hk
    exact ⟨by omega, by rw [BitVec.le_def]; omega, fun _ => by omega⟩

/-- An encode step moves BPOS on by the bytes it writes, and CNT by one pixel or not at all. -/
theorem encodeStep_grows {s t : State} (h : s.encodeStep = .next t) : s.bpos ≤ t.bpos ∧ s.cnt ≤ t.cnt := by
  obtain ⟨bs, -, hbpos⟩ := writesStream_encodeStep h
  refine ⟨by omega, ?_⟩
  rcases encodeStep_cases h with ⟨-, rfl⟩ | ⟨-, rfl⟩ | ⟨curr, hin, rfl⟩
  · rw [encodeClose_rest]
    exact BitVec.le_refl _
  · exact BitVec.le_refl _
  · have hcnt := cnt_succ s (inPixel_some hin)
    rw [encodePixel_cnt, BitVec.le_def]
    omega

/-- Settles O44, from what a decode step and an encode step do to the two registers. -/
theorem cursorAndCountOnlyGrow : Obligations.CursorAndCountOnlyGrow := by
  intro s t hinv hstep
  rcases runPse_cases hstep.runPse with ⟨hphase, rfl⟩ | ⟨-, hmode, hdec⟩ | ⟨-, hmode, henc⟩
  · exact ⟨Nat.le_refl _, BitVec.le_refl _, fun _ hbody => absurd hbody hphase⟩
  · obtain ⟨hb, hc, hstrict⟩ := decodeStep_grows (s := { s with port := s.port.tail }) (hinv.cursor hmode) hdec
    exact ⟨hb, hc, fun _ => hstrict⟩
  · obtain ⟨hb, hc⟩ := encodeStep_grows henc
    exact ⟨hb, hc, fun hdec => absurd (hmode.symm.trans hdec) (by decide)⟩

/-- Settles O45, from the frames of a decode step and of an encode step. -/
theorem stepsKeepArgumentsAndInputs : Obligations.StepsKeepArgumentsAndInputs := by
  intro s t hstep
  rcases runPse_cases hstep.runPse with ⟨-, rfl⟩ | ⟨-, hmode, hdec⟩ | ⟨-, hmode, henc⟩
  · exact ⟨rfl, rfl, rfl, rfl, rfl, rfl, fun _ => ⟨rfl, rfl⟩, fun _ => rfl⟩
  · rw [decodeStep_rest hdec]
    exact ⟨rfl, rfl, rfl, rfl, rfl, rfl, fun _ => ⟨rfl, rfl⟩, fun henc => absurd (hmode.symm.trans henc) (by decide)⟩
  · rw [encodeStep_rest henc]
    exact ⟨rfl, rfl, rfl, rfl, rfl, rfl, fun hdec => absurd (hmode.symm.trans hdec) (by decide), fun _ => rfl⟩

end Sys2Proof.Machine
end

section
/-! The invariant of the machine: it holds after reset, and every command and every step of the PSE keeps it
(10_state.md R14 to R24, 60_exceptions.md R158, R160). -/

namespace Sys2Proof.Machine

/-! ### Output spaces filled up to an address -/

/-- An output space in canonical form that holds exactly the bytes below `n` (R34, R35, R47). -/
def Memory.FilledTo (m : Memory) (n : Nat) : Prop := m.wf = true ∧ ∀ a, (m.read a).isSome = true ↔ a < n

theorem filledTo_empty : Memory.empty.FilledTo 0 := ⟨wf_empty, fun a => by simp⟩

/-- Bytes written where a filled space ends extend it. -/
theorem Memory.FilledTo.writeBytes {m : Memory} {n : Nat} (h : m.FilledTo n) (bs : List Byte) :
    (m.writeBytes n bs).FilledTo (n + bs.length) := by
  obtain ⟨hwf, hread⟩ := h
  refine ⟨wf_writeBytes m n bs hwf, fun a => ?_⟩
  rw [read_writeBytes]
  split
  · rename_i hin
    rw [isSome_getElem?]
    omega
  · rw [hread a]
    omega

/-- `k` pixels written where the pixels below CNT end extend DEC_OUT by their bytes. -/
theorem filledTo_outPixels {s : State} (h : s.decOut.FilledTo (4 * s.cnt.toNat)) (p : Pixel) {k : Nat}
    (hk : s.cnt.toNat + k ≤ s.npix.toNat) :
    (s.outPixels p k).decOut.FilledTo (4 * (s.outPixels p k).cnt.toNat) := by
  obtain ⟨hwf, hread⟩ := h
  refine ⟨outPixels_wf s p k hwf, fun a => ?_⟩
  rw [outPixels_read s p k hk, outPixels_cnt_toNat s p k hk, pixelAddr]
  split
  · rw [isSome_getElem?, length_pixelBytes]
    omega
  · rw [hread a]
    omega

theorem filledTo_afterChunk {s : State} (h : s.decOut.FilledTo (4 * s.cnt.toNat)) (cached : Bool) (n : Nat) (p : Pixel)
    {k : Nat} (hk : s.cnt.toNat + k ≤ s.npix.toNat) :
    (s.afterChunk cached n p k).decOut.FilledTo (4 * (s.afterChunk cached n p k).cnt.toNat) := by
  cases cached
  · exact filledTo_outPixels (s := s.advance n) h p hk
  · exact filledTo_outPixels (s := (s.update p).advance n) h p hk

/-! ### The invariant by modes -/

/-- In a decode that is not IDLE the invariant says this much; the other fields speak of IDLE or of an encode. -/
theorem pseInv_of_dec {s : State} (hmode : s.mode = .dec) (hphase : s.phase ≠ .idle)
    (hencOut : s.encOut.wf = true) (hdecOut : s.decOut.FilledTo (4 * s.cnt.toNat)) (hcache : CacheInv s)
    (hcount : s.cnt ≤ s.npix) (hunused : s.runLen = 0 ∧ s.hasAlpha = false) (hcursor : s.bpos ≤ s.decIn.length)
    (hopen : s.phase ≠ .done → s.status.underfill = false ∧ s.status.trailerBad = false)
    (htrunc : s.status.trunc = true → s.bpos = s.decIn.length ∧ s.cnt < s.npix)
    (hclosed : s.phase = .done →
      (s.status.underfill = true ↔ s.cnt < s.npix) ∧ (s.status.underfill = true → s.status.trailerBad = true)) :
    PseInv s where
  canonical := ⟨hdecOut.1, hencOut⟩
  cache := hcache
  count := hcount
  pending := by simp [hunused.1]
  decoderUnused _ := hunused
  cursor _ := hcursor
  opaqueAlpha henc := by simp [hmode] at henc
  idle hidle := absurd hidle hphase
  closingFlags hnot := hopen fun hdone => hnot ⟨hdone, hmode⟩
  truncated ht := ⟨hmode, hphase, htrunc ht⟩
  underfilled hdone _ := hclosed hdone
  encodeDone _ henc := by simp [hmode] at henc
  decoded _ _ := hdecOut.2
  encoded henc := by simp [hmode] at henc

/-- In an encode that is not IDLE the invariant says this much; the other fields speak of IDLE or of a decode. -/
theorem pseInv_of_enc {s : State} (hmode : s.mode = .enc) (hphase : s.phase ≠ .idle)
    (hdecOut : s.decOut.wf = true) (hencOut : s.encOut.FilledTo s.bpos) (hcache : CacheInv s)
    (hcount : s.cnt ≤ s.npix) (hpending : s.runLen.toNat ≤ 61) (halpha : s.hasAlpha = false → s.prev.a = 255)
    (hclear : s.status.trunc = false ∧ s.status.underfill = false ∧ s.status.trailerBad = false)
    (hdone : s.phase = .done → s.cnt = s.npix ∧ s.runLen = 0) : PseInv s where
  canonical := ⟨hdecOut, hencOut.1⟩
  cache := hcache
  count := hcount
  pending := hpending
  decoderUnused hdec := by simp [hmode] at hdec
  cursor hdec := by simp [hmode] at hdec
  opaqueAlpha _ := halpha
  idle hidle := absurd hidle hphase
  closingFlags _ := hclear.2
  truncated ht := by simp [hclear.1] at ht
  underfilled _ hdec := by simp [hmode] at hdec
  encodeDone hd _ := hdone hd
  decoded hdec := by simp [hmode] at hdec
  encoded _ _ := hencOut.2

theorem PseInv.decOutFilled {s : State} (h : PseInv s) (hmode : s.mode = .dec) (hphase : s.phase = .body) :
    s.decOut.FilledTo (4 * s.cnt.toNat) := ⟨h.canonical.1, h.decoded hmode (by simp [hphase])⟩

theorem PseInv.encOutFilled {s : State} (h : PseInv s) (hmode : s.mode = .enc) (hphase : s.phase = .body) :
    s.encOut.FilledTo s.bpos := ⟨h.canonical.2, h.encoded hmode (by simp [hphase])⟩

/-- In BODY the flags of the closing step are not set. -/
theorem PseInv.closingFlagsClear {s : State} (h : PseInv s) (hphase : s.phase = .body) :
    s.status.underfill = false ∧ s.status.trailerBad = false := h.closingFlags (by simp [hphase])

/-- A decode in BODY with bytes left has not been truncated. -/
theorem PseInv.trunc_eq_false {s : State} (h : PseInv s) (hb : s.mode = .dec → s.bpos < s.decIn.length) :
    s.status.trunc = false := by
  rw [← Bool.not_eq_true]
  intro ht
  obtain ⟨hmode, -, hend, -⟩ := h.truncated ht
  exact absurd hend (hb hmode).ne

/-! ### Commands -/

/-- The invariant does not speak of the port. -/
theorem PseInv.withPort {s : State} (h : PseInv s) (port : List HostEvent) : PseInv { s with port := port } :=
  ⟨h.canonical, h.cache, h.count, h.pending, h.decoderUnused, h.cursor, h.opaqueAlpha, h.idle, h.closingFlags,
    h.truncated, h.underfilled, h.encodeDone, h.decoded, h.encoded⟩

/-- The invariant does not speak of BADPARAM. -/
theorem PseInv.raise_badParam {s : State} (h : PseInv s) : PseInv (s.raise .badParam) :=
  ⟨h.canonical, h.cache, h.count, h.pending, h.decoderUnused, h.cursor, h.opaqueAlpha, h.idle, h.closingFlags,
    h.truncated, h.underfilled, h.encodeDone, h.decoded, h.encoded⟩

theorem pseInv_resetRegisters {s : State} (h : s.decOut.wf = true ∧ s.encOut.wf = true) :
    PseInv s.resetRegisters where
  canonical := h
  cache := cacheInv_zeroed _ rfl
  count := BitVec.le_refl _
  pending := Nat.zero_le _
  decoderUnused _ := ⟨rfl, rfl⟩
  cursor _ := Nat.zero_le _
  opaqueAlpha henc := nomatch henc
  idle _ := ⟨rfl, rfl, rfl, rfl, rfl, rfl, rfl, rfl⟩
  closingFlags _ := ⟨rfl, rfl⟩
  truncated ht := nomatch ht
  underfilled hdone := nomatch hdone
  encodeDone hdone := nomatch hdone
  decoded _ hphase := absurd rfl hphase
  encoded henc := nomatch henc

theorem PseInv.startDec {s : State} (h : PseInv s) (n : Count) (source : List Byte) : PseInv (s.startDec n source) := by
  by_cases hbody : s.phase = .body
  · rwa [startDec_busy hbody]
  · rw [startDec_accepted hbody]
    exact pseInv_of_dec rfl nofun h.canonical.2 filledTo_empty (cacheInv_zeroed _ rfl) (Nat.zero_le _) ⟨rfl, rfl⟩
      (Nat.zero_le _) (fun _ => ⟨rfl, rfl⟩) nofun nofun

theorem PseInv.startEnc {s : State} (h : PseInv s) (n : Count) (channels : Nat) (samples : List Byte) :
    PseInv (s.startEnc n channels samples) := by
  by_cases hbody : s.phase = .body
  · rwa [startEnc_busy hbody]
  · by_cases hchannels : channels = 3 ∨ channels = 4
    · rw [startEnc_accepted hbody n hchannels]
      exact pseInv_of_enc rfl nofun h.canonical.1 filledTo_empty (cacheInv_zeroed _ rfl) (Nat.zero_le _) (Nat.zero_le _)
        (fun _ => rfl) ⟨rfl, rfl, rfl⟩ nofun
    · rw [startEnc_refused hbody n hchannels]
      exact h.raise_badParam

theorem PseInv.command {s t : State} (h : PseInv s) {e : HostEvent} (hc : s.command e = some t) : PseInv t := by
  cases e with
  | quiet => exact nomatch hc
  | startDec n source =>
    obtain rfl := Option.some.inj hc
    exact h.startDec n source
  | startEnc n channels samples =>
    obtain rfl := Option.some.inj hc
    exact h.startEnc n channels samples
  | abort =>
    obtain rfl := Option.some.inj hc
    exact pseInv_resetRegisters h.canonical
  | hardReset =>
    obtain rfl := Option.some.inj hc
    exact pseInv_resetRegisters h.canonical

/-! ### Steps of a decode -/

/-- The closing step: where pixels are missing the source is exhausted, so the marker is missing too (R160). -/
theorem PseInv.decodeClose {s : State} (h : PseInv s) (hmode : s.mode = .dec) (hphase : s.phase = .body)
    (hdue : s.cnt = s.npix ∨ s.decIn.length ≤ s.bpos) : PseInv s.decodeClose := by
  have hcursor := h.cursor hmode
  obtain ⟨hunder, htrailer⟩ := h.closingFlagsClear hphase
  have hmissing : s.cnt < s.npix → s.markerFound = false := by
    intro hlt
    have hexhausted : s.decIn.length ≤ s.bpos := hdue.resolve_left (BitVec.ne_of_lt hlt)
    rw [← Bool.not_eq_true]
    intro hfound
    have := bpos_le_of_markerFound hfound
    omega
  rw [decodeClose_record]
  refine pseInv_of_dec hmode nofun h.canonical.2 (h.decOutFilled hmode hphase) h.cache h.count (h.decoderUnused hmode)
    ?_ (fun hopen => absurd rfl hopen) ?_ fun _ => ?_
  · dsimp only
    split
    · exact bpos_le_of_markerFound ‹_›
    · exact Nat.min_le_right _ _
  · intro ht
    obtain ⟨-, -, hend, hlt⟩ := h.truncated ht
    exact ⟨by simp [hmissing hlt, hend], hlt⟩
  · simp only [hunder, htrailer, Bool.false_or, decide_eq_true_eq, Bool.not_eq_true']
    exact ⟨trivial, hmissing⟩

/-- A cut chunk consumes the source with pixels missing (R94). -/
theorem PseInv.raise_truncatedStream {s : State} (h : PseInv s) (hmode : s.mode = .dec) (hphase : s.phase = .body)
    (hwanted : s.cnt ≠ s.npix) : PseInv (s.raise .truncatedStream) :=
  have hlt : s.cnt < s.npix := BitVec.lt_of_le_ne h.count hwanted
  pseInv_of_dec hmode (by simp [hphase]) h.canonical.2 (h.decOutFilled hmode hphase) h.cache h.count
    (h.decoderUnused hmode) (Nat.le_refl _) (fun _ => h.closingFlagsClear hphase) (fun _ => ⟨rfl, hlt⟩)
    (by simp [hphase])

/-- A whole chunk moves the cursor within the source and CNT within NPIX (R95). -/
theorem PseInv.afterChunk {s : State} (h : PseInv s) (hmode : s.mode = .dec) (hphase : s.phase = .body)
    (cached : Bool) {n k : Nat} (p : Pixel) (hn : 1 ≤ n) (hb : s.bpos + n ≤ s.decIn.length)
    (hk : s.cnt.toNat + k ≤ s.npix.toNat) : PseInv (s.afterChunk cached n p k) := by
  have htrunc : s.status.trunc = false := h.trunc_eq_false fun _ => by omega
  have hcount := afterChunk_cnt_toNat cached n p hk
  have hfilled := filledTo_afterChunk (h.decOutFilled hmode hphase) cached n p hk
  have hcache := cacheInv_afterChunk h.cache cached n p k
  rw [afterChunk_rest] at hcount hfilled hcache ⊢
  exact pseInv_of_dec hmode (by simp [hphase]) h.canonical.2 hfilled hcache
    (BitVec.le_def.2 (hcount.trans_le hk)) (h.decoderUnused hmode) hb
    (fun _ => h.closingFlagsClear hphase) (by simp [htrunc]) (by simp [hphase])

theorem PseInv.decodeStep {s t : State} (h : PseInv s) (hmode : s.mode = .dec) (hphase : s.phase = .body)
    (hstep : s.decodeStep = .next t) : PseInv t := by
  rcases decodeStep_outcomes hstep with ⟨hdue, rfl⟩ | ⟨hwanted, -, rfl⟩ | ⟨cached, n, p, k, hn, hb, hk, rfl⟩
  · exact h.decodeClose hmode hphase hdue
  · exact h.raise_truncatedStream hmode hphase hwanted
  · exact h.afterChunk hmode hphase cached p hn hb hk

/-! ### Steps of an encode -/

theorem WritesStream.filledTo {s t : State} (hw : WritesStream s t) (h : s.encOut.FilledTo s.bpos) :
    t.encOut.FilledTo t.bpos := by
  obtain ⟨bs, ho, hb⟩ := hw
  rw [ho, hb]
  exact h.writeBytes bs

theorem PseInv.encFlagsClear {s : State} (h : PseInv s) (hmode : s.mode = .enc) (hphase : s.phase = .body) :
    s.status.trunc = false ∧ s.status.underfill = false ∧ s.status.trailerBad = false :=
  ⟨h.trunc_eq_false (by simp [hmode]), h.closingFlagsClear hphase⟩

theorem PseInv.encodeClose {s : State} (h : PseInv s) (hmode : s.mode = .enc) (hphase : s.phase = .body)
    (hcnt : s.cnt = s.npix) : PseInv s.encodeClose := by
  have hfilled := (writesStream_encodeClose s).filledTo (h.encOutFilled hmode hphase)
  rw [encodeClose_rest] at hfilled ⊢
  exact pseInv_of_enc hmode nofun h.canonical.1 hfilled h.cache h.count (Nat.zero_le _) (h.opaqueAlpha hmode)
    (h.encFlagsClear hmode hphase) (fun _ => ⟨hcnt, rfl⟩)

/-- RUNLEN stays in 0..61: the count that would reach 62 is flushed (R112). -/
theorem encodePixel_runLen_le {s : State} (h : s.runLen.toNat ≤ 61) (curr : Pixel) :
    (s.encodePixel curr).runLen.toNat ≤ 61 := by
  unfold State.encodePixel
  split
  · by_cases hfull : s.runLen + 1 = 62
    · simp [State.continueRun, countRun_full hfull]
    · simp only [State.continueRun, countRun_grow hfull, firstPixelFixup_runLen]
      bv_omega
  · simp [State.codePixel]

theorem PseInv.encodePixel {s : State} (h : PseInv s) (hmode : s.mode = .enc) (hphase : s.phase = .body)
    {curr : Pixel} (hin : s.inPixel = some curr) : PseInv (s.encodePixel curr) := by
  have hfilled := (writesStream_encodePixel s curr).filledTo (h.encOutFilled hmode hphase)
  have hcache := cacheInv_encodePixel h.cache curr
  have hpending := encodePixel_runLen_le h.pending curr
  have hlt := inPixel_some hin
  have hcount : s.cnt + 1 ≤ s.npix := BitVec.le_def.2 ((cnt_succ s hlt).trans_le hlt)
  rw [encodePixel_rest] at hfilled hcache hpending ⊢
  exact pseInv_of_enc hmode (by simp [hphase]) h.canonical.1 hfilled hcache hcount hpending
    (fun hopaque => inPixel_alpha hin hopaque)
    (h.encFlagsClear hmode hphase) (by simp [hphase])

theorem PseInv.encodeStep {s t : State} (h : PseInv s) (hmode : s.mode = .enc) (hphase : s.phase = .body)
    (hstep : s.encodeStep = .next t) : PseInv t := by
  rcases encodeStep_cases hstep with ⟨hcnt, rfl⟩ | ⟨-, rfl⟩ | ⟨curr, hin, rfl⟩
  · exact h.encodeClose hmode hphase hcnt
  · exact h
  · exact h.encodePixel hmode hphase hin

/-! ### Every step -/

theorem PseInv.runPse {s t : State} (h : PseInv s) (hstep : s.runPse = .next t) : PseInv t := by
  rcases runPse_cases hstep with ⟨-, rfl⟩ | ⟨hphase, hmode, hdec⟩ | ⟨hphase, hmode, henc⟩
  · exact h
  · exact h.decodeStep hmode hphase hdec
  · exact h.encodeStep hmode hphase henc

/-- Settles O38: the reset state is its own registers at their reset values. -/
theorem resetMeetsPseInv : Obligations.ResetMeetsPseInv :=
  pseInv_resetRegisters (s := State.reset) ⟨wf_empty, wf_empty⟩

/-- Settles O39: a step is a command or a step of the PSE, and each keeps the invariant. -/
theorem stepKeepsPseInv : Obligations.StepKeepsPseInv := by
  intro s t h hstep
  rcases step_cases hstep with ⟨e, more, -, hc⟩ | ⟨-, hpse⟩
  · exact (h.withPort more).command hc
  · exact (h.withPort s.port.tail).runPse hpse

end Sys2Proof.Machine
end

section
/-! Noninterference: what the machine held before a START cannot be told from any run after it (10_state.md R22). Two
machines that took the same START are related by `AgreeBut`, and every step keeps the relation. -/

namespace Sys2Proof.Machine

/-! ### The two spaces of one mode -/

/-- The state with the two spaces of `m` replaced. -/
def State.withSpaces (s : State) (m : Mode) (input : List Byte) (output : Memory) : State :=
  match m with
  | .dec => { s with decIn := input, decOut := output }
  | .enc => { s with encIn := input, encOut := output }

/-- A result with its next state mapped. -/
def Result.mapNext (f : State → State) : Result → Result
  | .next t => .next (f t)
  | .fault r => .fault r
  | .refused r => .refused r

@[simp] theorem withSpaces_phase (s : State) (m : Mode) (i : List Byte) (o : Memory) :
    (s.withSpaces m i o).phase = s.phase := by cases m <;> rfl
@[simp] theorem withSpaces_mode (s : State) (m : Mode) (i : List Byte) (o : Memory) :
    (s.withSpaces m i o).mode = s.mode := by cases m <;> rfl
@[simp] theorem withSpaces_port (s : State) (m : Mode) (i : List Byte) (o : Memory) :
    (s.withSpaces m i o).port = s.port := by cases m <;> rfl

theorem withSpaces_setPort (s : State) (m : Mode) (i : List Byte) (o : Memory) (port : List HostEvent) :
    ({ s.withSpaces m i o with port := port } : State) = ({ s with port := port } : State).withSpaces m i o := by
  cases m <;> rfl

theorem encodeStep_of_full {s : State} (h : s.cnt = s.npix) : s.encodeStep = .next s.encodeClose := if_pos h

theorem encodeStep_of_noPixel {s : State} (h : s.cnt ≠ s.npix) (hin : s.inPixel = none) : s.encodeStep = .next s := by
  simp only [State.encodeStep, if_neg h, hin]

/-! ### A decode step does not look at the encode spaces -/

section Decode
variable (s : State) (i : List Byte) (o : Memory)

theorem commit_withSpaces (p : Pixel) :
    (s.withSpaces .enc i o).commit p = Result.mapNext (·.withSpaces .enc i o) (s.commit p) := by
  rw [commit_eq s p, apply_ite (Result.mapNext _)]
  rfl

theorem trailingCommit_withSpaces (n : Nat) (p : Pixel) :
    (s.withSpaces .enc i o).trailingCommit n p = Result.mapNext (·.withSpaces .enc i o) (s.trailingCommit n p) := by
  rw [State.trailingCommit.eq_def s, apply_ite (Result.mapNext _), State.commitCached, ← commit_withSpaces]
  rfl

theorem outPixels_withSpaces (p : Pixel) (k : Nat) :
    (s.withSpaces .enc i o).outPixels p k = (s.outPixels p k).withSpaces .enc i o := by
  induction k generalizing s with
  | zero => rfl
  | succ k ih => exact ih (s.outPixel p)

theorem execRun_withSpaces (n : BitVec 6) :
    execRun n (s.withSpaces .enc i o) = Result.mapNext (·.withSpaces .enc i o) (execRun n s) := by
  rw [execRun.eq_def n s, apply_ite (Result.mapNext _), apply_ite (Result.mapNext _), Result.mapNext,
    ← outPixels_withSpaces]
  rfl

theorem exec_withSpaces (c : Instr) :
    exec c (s.withSpaces .enc i o) = Result.mapNext (·.withSpaces .enc i o) (exec c s) := by
  cases c with
  | rgb r g b => exact trailingCommit_withSpaces s i o 3 _
  | rgba r g b a => exact trailingCommit_withSpaces s i o 4 _
  | index idx => exact commit_withSpaces (s.advance 1) i o _
  | diff fr fg fb => exact commit_withSpaces ((s.advance 1).update _) i o _
  | luma fgl frg fbg => exact trailingCommit_withSpaces s i o 1 _
  | run n => exact execRun_withSpaces s i o n

theorem decodeClose_withSpaces : (s.withSpaces .enc i o).decodeClose = s.decodeClose.withSpaces .enc i o := by
  rw [decodeClose_record s, decodeClose_record]
  rfl

theorem decodeStep_withSpaces :
    (s.withSpaces .enc i o).decodeStep = Result.mapNext (·.withSpaces .enc i o) s.decodeStep := by
  rw [State.decodeStep.eq_def s, apply_ite (Result.mapNext _), ← exec_withSpaces, Result.mapNext,
    ← decodeClose_withSpaces]
  rfl

end Decode

/-! ### An encode step does not look at the decode spaces -/

section Encode
variable (s : State) (i : List Byte) (o : Memory)

theorem ite_withSpaces (c : Prop) [Decidable c] (a b : State) :
    (if c then a else b).withSpaces .dec i o = if c then a.withSpaces .dec i o else b.withSpaces .dec i o :=
  apply_ite (fun u : State => u.withSpaces .dec i o) c a b

theorem flushRun_withSpaces : (s.withSpaces .dec i o).flushRun = s.flushRun.withSpaces .dec i o := by
  rw [State.flushRun.eq_def s, ite_withSpaces]
  rfl

theorem countRun_withSpaces : (s.withSpaces .dec i o).countRun = s.countRun.withSpaces .dec i o := by
  rw [State.countRun.eq_def s, ite_withSpaces]
  rfl

theorem firstPixelFixup_withSpaces (curr : Pixel) :
    (s.withSpaces .dec i o).firstPixelFixup curr = (s.firstPixelFixup curr).withSpaces .dec i o := by
  rw [State.firstPixelFixup.eq_def s, ite_withSpaces]
  rfl

theorem selectChunk_withSpaces (curr : Pixel) :
    (s.withSpaces .dec i o).selectChunk curr = (s.selectChunk curr).withSpaces .dec i o := by
  rw [State.selectChunk.eq_def s, ite_withSpaces]
  rfl

theorem continueRun_withSpaces (curr : Pixel) :
    (s.withSpaces .dec i o).continueRun curr = (s.continueRun curr).withSpaces .dec i o := by
  rw [State.continueRun, countRun_withSpaces, firstPixelFixup_withSpaces]
  rfl

theorem codePixel_withSpaces (curr : Pixel) :
    (s.withSpaces .dec i o).codePixel curr = (s.codePixel curr).withSpaces .dec i o := by
  rw [State.codePixel, flushRun_withSpaces, selectChunk_withSpaces]
  rfl

theorem encodePixel_withSpaces (curr : Pixel) :
    (s.withSpaces .dec i o).encodePixel curr = (s.encodePixel curr).withSpaces .dec i o := by
  rw [State.encodePixel.eq_def s, ite_withSpaces, ← continueRun_withSpaces, ← codePixel_withSpaces]
  rfl

theorem encodeClose_withSpaces : (s.withSpaces .dec i o).encodeClose = s.encodeClose.withSpaces .dec i o := by
  rw [State.encodeClose, flushRun_withSpaces]
  rfl

theorem encodeStep_withSpaces :
    (s.withSpaces .dec i o).encodeStep = Result.mapNext (·.withSpaces .dec i o) s.encodeStep := by
  by_cases hcnt : s.cnt = s.npix
  · rw [encodeStep_of_full hcnt, encodeStep_of_full (s := s.withSpaces .dec i o) hcnt, encodeClose_withSpaces]
    rfl
  · cases hin : s.inPixel with
    | some curr =>
      rw [encodeStep_of_pixel hcnt hin, encodeStep_of_pixel (s := s.withSpaces .dec i o) hcnt hin,
        encodePixel_withSpaces]
      rfl
    | none =>
      rw [encodeStep_of_noPixel hcnt hin, encodeStep_of_noPixel (s := s.withSpaces .dec i o) hcnt hin]
      rfl

end Encode

/-- A step of the PSE does not look at the spaces of a mode it is not in BODY of. -/
theorem runPse_withSpaces {s : State} {m : Mode} (hm : s.phase = .body → s.mode ≠ m) (i : List Byte) (o : Memory) :
    (s.withSpaces m i o).runPse = Result.mapNext (·.withSpaces m i o) s.runPse := by
  by_cases hphase : s.phase = .body
  · cases hmode : s.mode with
    | dec =>
      cases m with
      | dec => exact absurd hmode (hm hphase)
      | enc =>
        rw [runPse_dec hphase hmode, runPse_dec (s := s.withSpaces .enc i o) hphase hmode]
        exact decodeStep_withSpaces s i o
    | enc =>
      cases m with
      | dec =>
        rw [runPse_enc hphase hmode, runPse_enc (s := s.withSpaces .dec i o) hphase hmode]
        exact encodeStep_withSpaces s i o
      | enc => exact absurd hmode (hm hphase)
  · rw [runPse_still hphase, runPse_still (by simpa using hphase)]
    rfl

/-! ### Two machines that took the same START -/

/-- The machines are equal, or they differ in the spaces of `m` alone and are not in BODY of that mode, so that no step
reads the difference. -/
def AgreeBut (m : Mode) (s₁ s₂ : State) : Prop :=
  s₁ = s₂ ∨ (s₂.phase = .body → s₂.mode ≠ m) ∧ ∃ i o, s₁ = s₂.withSpaces m i o

/-- An accepted START_DEC leaves no trace of what was before it, but in the encode spaces (R176). -/
theorem startDec_agreeBut {s₁ s₂ : State} (h₁ : s₁.phase ≠ .body) (h₂ : s₂.phase ≠ .body) (hport : s₁.port = s₂.port)
    (n : Count) (source : List Byte) : AgreeBut .enc (s₁.startDec n source) (s₂.startDec n source) := by
  rw [startDec_accepted h₁, startDec_accepted h₂, State.streamStart, hport]
  exact .inr ⟨fun _ => nofun, s₁.encIn, s₁.encOut, rfl⟩

/-- An accepted START_ENC leaves no trace of what was before it, but in the decode spaces (R176). -/
theorem startEnc_agreeBut {s₁ s₂ : State} (h₁ : s₁.phase ≠ .body) (h₂ : s₂.phase ≠ .body) (hport : s₁.port = s₂.port)
    (n : Count) {channels : Nat} (hc : channels = 3 ∨ channels = 4) (samples : List Byte) :
    AgreeBut .dec (s₁.startEnc n channels samples) (s₂.startEnc n channels samples) := by
  rw [startEnc_accepted h₁ n hc, startEnc_accepted h₂ n hc, State.streamStart, hport]
  exact .inr ⟨fun _ => nofun, s₁.decIn, s₁.decOut, rfl⟩

theorem resetRegisters_withSpaces (s : State) (m : Mode) (i : List Byte) (o : Memory) :
    AgreeBut m (s.withSpaces m i o).resetRegisters s.resetRegisters :=
  .inr ⟨nofun, i, o, by cases m <;> rfl⟩

section OneStep
variable {s : State} {m : Mode} (hm : s.phase = .body → s.mode ≠ m) (i : List Byte) (o : Memory)
include hm

/-- The same START_DEC on two such machines; one of mode `m` makes them equal. -/
theorem startDec_withSpaces (n : Count) (source : List Byte) :
    AgreeBut m ((s.withSpaces m i o).startDec n source) (s.startDec n source) := by
  by_cases hbody : s.phase = .body
  · rw [startDec_busy hbody, startDec_busy (by simpa using hbody)]
    exact .inr ⟨hm, i, o, rfl⟩
  · cases m with
    | dec => exact .inl (by rw [startDec_accepted hbody, startDec_accepted (by simpa using hbody)]; rfl)
    | enc => exact startDec_agreeBut (s₁ := s.withSpaces .enc i o) hbody hbody rfl n source

/-- The same START_ENC on two such machines; an accepted one of mode `m` makes them equal. -/
theorem startEnc_withSpaces (n : Count) (channels : Nat) (samples : List Byte) :
    AgreeBut m ((s.withSpaces m i o).startEnc n channels samples) (s.startEnc n channels samples) := by
  by_cases hbody : s.phase = .body
  · rw [startEnc_busy hbody, startEnc_busy (by simpa using hbody)]
    exact .inr ⟨hm, i, o, rfl⟩
  · by_cases hc : channels = 3 ∨ channels = 4
    · cases m with
      | dec => exact startEnc_agreeBut (s₁ := s.withSpaces .dec i o) hbody hbody rfl n hc samples
      | enc => exact .inl (by rw [startEnc_accepted hbody n hc, startEnc_accepted (by simpa using hbody) n hc]; rfl)
    · rw [startEnc_refused hbody n hc, startEnc_refused (by simpa using hbody) n hc]
      exact .inr ⟨fun h => absurd h hbody, i, o, by cases m <;> rfl⟩

/-- The same command on two such machines. -/
theorem command_agreeBut {t : State} {e : HostEvent} (h : s.command e = some t) :
    ∃ u, (s.withSpaces m i o).command e = some u ∧ AgreeBut m u t := by
  cases e with
  | quiet => exact nomatch h
  | startDec n source => exact ⟨_, rfl, Option.some.inj h ▸ startDec_withSpaces hm i o n source⟩
  | startEnc n channels samples => exact ⟨_, rfl, Option.some.inj h ▸ startEnc_withSpaces hm i o n channels samples⟩
  | abort => exact ⟨_, rfl, Option.some.inj h ▸ resetRegisters_withSpaces s m i o⟩
  | hardReset => exact ⟨_, rfl, Option.some.inj h ▸ resetRegisters_withSpaces s m i o⟩

/-- The PSE's own step on two such machines. -/
theorem runPse_agreeBut {t : State} (h : s.runPse = .next t) :
    ∃ u, (s.withSpaces m i o).runPse = .next u ∧ AgreeBut m u t := by
  refine ⟨t.withSpaces m i o, by rw [runPse_withSpaces hm, h]; rfl, .inr ⟨fun hbody => ?_, i, o, rfl⟩⟩
  rw [runPse_mode h]
  rcases runPse_cases h with ⟨-, rfl⟩ | ⟨hphase, -, -⟩ | ⟨hphase, -, -⟩
  · exact hm hbody
  · exact hm hphase
  · exact hm hphase

/-- One step on two such machines. -/
theorem step_withSpaces {t : State} (h : step s = .next t) :
    ∃ u, step (s.withSpaces m i o) = .next u ∧ AgreeBut m u t := by
  rcases step_cases h with ⟨e, more, hport, hc⟩ | ⟨hnone, hpse⟩
  · obtain ⟨u, hu, hagree⟩ := command_agreeBut (s := { s with port := more }) hm i o hc
    rw [← withSpaces_setPort] at hu
    exact ⟨u, step_of_command (by simpa using hport) hu, hagree⟩
  · obtain ⟨u, hu, hagree⟩ := runPse_agreeBut (s := { s with port := s.port.tail }) hm i o hpse
    refine ⟨u, ?_, hagree⟩
    rw [step_of_noCommand (by simpa [NoCommand] using hnone), withSpaces_port, withSpaces_setPort]
    exact hu

end OneStep

theorem step_agreeBut {s₁ s₂ t₁ t₂ : State} {m : Mode} (h : AgreeBut m s₁ s₂) (h₁ : step s₁ = .next t₁)
    (h₂ : step s₂ = .next t₂) : AgreeBut m t₁ t₂ := by
  rcases h with rfl | ⟨hm, i, o, rfl⟩
  · rw [h₁] at h₂
    injection h₂ with ht
    exact .inl ht
  · obtain ⟨u, hu, hagree⟩ := step_withSpaces hm i o h₂
    rw [hu] at h₁
    injection h₁ with ht
    rwa [← ht]

/-! ### Runs -/

/-- `k + 1` steps that answer a next state are one step and then `k`. -/
theorem run_succ_next {M : Host.Core} {k : Nat} {s t : M.State} (h : M.run (k + 1) s = .next t) :
    ∃ u, M.step s = .next u ∧ M.run k u = .next t := by
  rw [Host.Core.run] at h
  split at h
  · exact ⟨_, ‹_›, h⟩
  · exact nomatch h
  · exact nomatch h

theorem run_of_step {M : Host.Core} {k : Nat} {s u : M.State} (h : M.step s = .next u) :
    M.run (k + 1) s = M.run k u := by
  rw [Host.Core.run, h]

theorem run_agreeBut {m : Mode} {k : Nat} {s₁ s₂ t₁ t₂ : State} (h : AgreeBut m s₁ s₂)
    (h₁ : Host.Core.run core k s₁ = .next t₁) (h₂ : Host.Core.run core k s₂ = .next t₂) : AgreeBut m t₁ t₂ := by
  induction k generalizing s₁ s₂ with
  | zero =>
    injection h₁ with ht₁
    injection h₂ with ht₂
    rwa [← ht₁, ← ht₂]
  | succ k ih =>
    obtain ⟨u₁, hstep₁, hrun₁⟩ := run_succ_next (M := core) h₁
    obtain ⟨u₂, hstep₂, hrun₂⟩ := run_succ_next (M := core) h₂
    exact ih (step_agreeBut h hstep₁ hstep₂) hrun₁ hrun₂

/-- A run that begins with a command keeps what the command established. -/
theorem run_command_agreeBut {m : Mode} {k : Nat} {s₁ s₂ t₁ t₂ u₁ u₂ : State} {e : HostEvent} {more : List HostEvent}
    (hport₁ : s₁.port = e :: more) (hport₂ : s₂.port = e :: more)
    (hc₁ : ({ s₁ with port := more } : State).command e = some u₁)
    (hc₂ : ({ s₂ with port := more } : State).command e = some u₂) (hu : AgreeBut m u₁ u₂)
    (hrun₁ : Host.Core.run core (k + 1) s₁ = .next t₁) (hrun₂ : Host.Core.run core (k + 1) s₂ = .next t₂) :
    AgreeBut m t₁ t₂ := by
  rw [run_of_step (M := core) (step_of_command hport₁ hc₁)] at hrun₁
  rw [run_of_step (M := core) (step_of_command hport₂ hc₂)] at hrun₂
  exact run_agreeBut hu hrun₁ hrun₂

theorem AgreeBut.eq_but_encSpaces {s t : State} (h : AgreeBut .enc s t) :
    s = { t with encIn := s.encIn, encOut := s.encOut } := by
  rcases h with rfl | ⟨-, i, o, rfl⟩
  · rfl
  · rfl

theorem AgreeBut.eq_but_decSpaces {s t : State} (h : AgreeBut .dec s t) :
    s = { t with decIn := s.decIn, decOut := s.decOut } := by
  rcases h with rfl | ⟨-, i, o, rfl⟩
  · rfl
  · rfl

/-- Settles O37: the START relates the two machines by `AgreeBut`, and every run keeps the relation. -/
theorem pastIsUnobservableAfterStart : Obligations.PastIsUnobservableAfterStart := by
  intro s₁ s₂ t₁ t₂ k hphase₁ hphase₂ hport hrun₁ hrun₂
  constructor
  · intro n source more hstart
    have hstarted := startDec_agreeBut (s₁ := { s₁ with port := more }) (s₂ := { s₂ with port := more })
      hphase₁ hphase₂ rfl n source
    exact (run_command_agreeBut hstart (hport ▸ hstart) rfl rfl hstarted hrun₁ hrun₂).eq_but_encSpaces
  · intro n channels samples more hstart hchannels
    have hstarted := startEnc_agreeBut (s₁ := { s₁ with port := more }) (s₂ := { s₂ with port := more })
      hphase₁ hphase₂ rfl n hchannels samples
    exact (run_command_agreeBut hstart (hport ▸ hstart) rfl rfl hstarted hrun₁ hrun₂).eq_but_decSpaces

end Sys2Proof.Machine
end

section
/-! The encoder's input pixel: the samples it is read from, and an encode whose samples are missing (20_memory.md R36). -/

namespace Sys2Proof.Machine

/-- At 4 channels the input pixel is the four samples at its offset. -/
theorem inPixel_rgba {s : State} {r g b a : Byte} {more : List Byte} (hlt : s.cnt < s.npix) (halpha : s.hasAlpha = true)
    (hsamples : s.encIn.drop (4 * s.cnt.toNat) = r :: g :: b :: a :: more) : s.inPixel = some ⟨r, g, b, a⟩ := by
  simp [State.inPixel, hlt, halpha, hsamples]

/-- At 3 channels the input pixel is the three samples at its offset, opaque. -/
theorem inPixel_rgb {s : State} {r g b : Byte} {more : List Byte} (hlt : s.cnt < s.npix) (halpha : s.hasAlpha = false)
    (hsamples : s.encIn.drop (3 * s.cnt.toNat) = r :: g :: b :: more) : s.inPixel = some ⟨r, g, b, 255⟩ := by
  simp [State.inPixel, hlt, halpha, hsamples]

/-- Samples found from an offset on bound the length of the whole list from below. -/
theorem length_of_drop_eq {samples front more : List Byte} {k : Nat} (h : samples.drop k = front ++ more)
    (hfront : front ≠ []) : k + front.length ≤ samples.length := by
  have hlength := congrArg List.length h
  have hpos := List.length_pos_of_ne_nil hfront
  rw [List.length_drop, List.length_append] at hlength
  omega

/-- An input pixel is there only where the host supplied all its samples. -/
theorem inPixel_supplied {s : State} {p : Pixel} (h : s.inPixel = some p) :
    (if s.hasAlpha then 4 else 3) * (s.cnt.toNat + 1) ≤ s.encIn.length := by
  rw [State.inPixel, if_pos (inPixel_some h)] at h
  split at h
  next r g b a more halpha hsamples =>
    rw [halpha] at hsamples ⊢
    exact length_of_drop_eq (front := [r, g, b, a]) hsamples nofun
  next r g b more halpha hsamples =>
    rw [halpha] at hsamples ⊢
    exact length_of_drop_eq (front := [r, g, b]) hsamples nofun
  · exact nomatch h
  · exact nomatch h

/-- Where the samples of the next pixel are not all there, there is no input pixel. -/
theorem inPixel_eq_none {s : State} (h : s.encIn.length < (if s.hasAlpha then 4 else 3) * (s.cnt.toNat + 1)) :
    s.inPixel = none :=
  Option.eq_none_iff_forall_ne_some.2 fun _ hin => Nat.not_lt_of_le (inPixel_supplied hin) h

/-- Settles O21, from the input pixel at 4 and at 3 channels. -/
theorem inPixelReadsSamples : Obligations.InPixelReadsSamples :=
  fun _ _ _ _ _ _ hlt => ⟨inPixel_rgba hlt, inPixel_rgb hlt⟩

/-- Settles O29: with no input pixel the encode step answers its own state, and ABORT resets the registers. -/
theorem missingInputWaitsForAbort : Obligations.MissingInputWaitsForAbort := by
  intro s hphase hmode hlt hmissing
  constructor
  · intro hnone
    rw [step_of_noCommand hnone, runPse_enc (s := { s with port := s.port.tail }) hphase hmode]
    exact encodeStep_of_noPixel (s := { s with port := s.port.tail }) (BitVec.ne_of_lt hlt) (inPixel_eq_none hmissing)
  · intro more hport
    exact ⟨_, step_of_command hport rfl, rfl⟩

end Sys2Proof.Machine
end

section
/-! SUPPORT. Rules about tags, the decoder and the encoder (30_encoding.md R52 to R61). -/

namespace Sys2Proof.Machine

/-! ### The category and the payload of a tag -/

@[simp] theorem top2_append (c : BitVec 2) (p : BitVec 6) : top2 (c ++ p) = c := BitVec.extractLsb'_append_eq_left

@[simp] theorem payload_append (c : BitVec 2) (p : BitVec 6) : payload (c ++ p) = p :=
  BitVec.extractLsb'_append_eq_right

theorem top2_append_payload (t : Byte) : top2 t ++ payload t = t :=
  (BitVec.extractLsb'_append_extractLsb'_eq_extractLsb' (by decide)).trans BitVec.extractLsb'_eq_self

/-- The category of a tag is its quarter of the 256 values. -/
theorem top2_eq_iff (t : Byte) (c : BitVec 2) :
    top2 t = c ↔ 64 * c.toNat ≤ t.toNat ∧ t.toNat < 64 * c.toNat + 64 := by
  rw [← BitVec.toNat_inj, top2, BitVec.extractLsb'_toNat, Nat.shiftRight_eq_div_pow]
  omega

theorem toNat_payload (t : Byte) : (payload t).toNat = t.toNat % 64 := BitVec.extractLsb'_toNat 0 6 t

/-- A bit field of a byte as the spec writes it: shift down, then mask. -/
theorem toNat_field (b : Byte) (start len : Nat) :
    (b.extractLsb' start len).toNat = (b.toNat >>> start) &&& (2 ^ len - 1) := by
  rw [BitVec.extractLsb'_toNat, Nat.and_two_pow_sub_one_eq_mod]

/-- The four fields of a DIFF tag (R56). -/
theorem diff_tag_fields : ∀ fr fg fb : BitVec 2,
    top2 (0b01#2 ++ fr ++ fg ++ fb) = 0b01#2 ∧
      BitVec.extractLsb' 4 2 (0b01#2 ++ fr ++ fg ++ fb) = fr ∧
      BitVec.extractLsb' 2 2 (0b01#2 ++ fr ++ fg ++ fb) = fg ∧
      BitVec.extractLsb' 0 2 (0b01#2 ++ fr ++ fg ++ fb) = fb := by
  decide

/-- The category of a tag and its three two-bit fields, put together again (R56). -/
theorem append_diff_tag_fields (t : Byte) :
    top2 t ++ t.extractLsb' 4 2 ++ t.extractLsb' 2 2 ++ t.extractLsb' 0 2 = t := by
  rw [top2, BitVec.extractLsb'_append_extractLsb'_eq_extractLsb' (by decide),
    BitVec.extractLsb'_append_extractLsb'_eq_extractLsb' (by decide),
    BitVec.extractLsb'_append_extractLsb'_eq_extractLsb' (by decide)]
  exact BitVec.extractLsb'_eq_self

/-- The two halves of the second LUMA byte, put together again (R58). -/
theorem append_nibbles (b : Byte) : b.extractLsb' 4 4 ++ b.extractLsb' 0 4 = b :=
  (BitVec.extractLsb'_append_extractLsb'_eq_extractLsb' (by decide)).trans BitVec.extractLsb'_eq_self

/-! ### Dispatch on the tag -/

/-- Every tag is one of the two whole-byte tags, or is of one of the four categories; in the last one its payload is then
at most 61 (R59, R60). -/
theorem tag_cases (t : Byte) :
    t = 0xFE#8 ∨ t = 0xFF#8 ∨ top2 t = 0b00#2 ∨ top2 t = 0b01#2 ∨ top2 t = 0b10#2 ∨
      (top2 t = 0b11#2 ∧ (payload t).toNat ≤ 61) := by
  simp only [top2_eq_iff, toNat_payload, ← BitVec.toNat_inj (x := t), BitVec.toNat_ofNat]
  omega

section Dispatch
variable {t : Byte} (b1 b2 b3 b4 : Byte)

/-- A tag outside the last category is no whole-byte tag. -/
theorem not_whole_tag_of_top2 (h : top2 t ≠ 0b11#2) : t ≠ 0xFE#8 ∧ t ≠ 0xFF#8 :=
  ⟨fun ht => h (ht ▸ rfl), fun ht => h (ht ▸ rfl)⟩

theorem chunkOf_rgb : chunkOf 0xFE#8 b1 b2 b3 b4 = .rgb b1 b2 b3 := rfl

theorem chunkOf_rgba : chunkOf 0xFF#8 b1 b2 b3 b4 = .rgba b1 b2 b3 b4 := rfl

theorem chunkOf_index (h : top2 t = 0b00#2) : chunkOf t b1 b2 b3 b4 = .index (payload t) := by
  obtain ⟨hrgb, hrgba⟩ := not_whole_tag_of_top2 (t := t) (by simp [h])
  simp [chunkOf, hrgb, hrgba, h]

theorem chunkOf_diff (h : top2 t = 0b01#2) :
    chunkOf t b1 b2 b3 b4 = .diff (t.extractLsb' 4 2) (t.extractLsb' 2 2) (t.extractLsb' 0 2) := by
  obtain ⟨hrgb, hrgba⟩ := not_whole_tag_of_top2 (t := t) (by simp [h])
  simp [chunkOf, hrgb, hrgba, h]

theorem chunkOf_luma (h : top2 t = 0b10#2) :
    chunkOf t b1 b2 b3 b4 = .luma (payload t) (b1.extractLsb' 4 4) (b1.extractLsb' 0 4) := by
  obtain ⟨hrgb, hrgba⟩ := not_whole_tag_of_top2 (t := t) (by simp [h])
  simp [chunkOf, hrgb, hrgba, h]

theorem chunkOf_run (h : top2 t = 0b11#2) (hp : (payload t).toNat ≤ 61) : chunkOf t b1 b2 b3 b4 = .run (payload t) := by
  have hrgb : t ≠ 0xFE#8 := fun ht => absurd (ht ▸ hp) (by decide)
  have hrgba : t ≠ 0xFF#8 := fun ht => absurd (ht ▸ hp) (by decide)
  simp [chunkOf, hrgb, hrgba, h]

/-- Dispatch yields no RUN with payload 62 or 63: those bytes are the tags of RGB and RGBA (R59, R60). -/
theorem chunkOf_wellFormed (t : Byte) : (chunkOf t b1 b2 b3 b4).wellFormed = true := by
  rcases tag_cases t with rfl | rfl | h | h | h | ⟨h, hp⟩
  · rfl
  · rfl
  · rw [chunkOf_index _ _ _ _ h]; rfl
  · rw [chunkOf_diff _ _ _ _ h]; rfl
  · rw [chunkOf_luma _ _ _ _ h]; rfl
  · rw [chunkOf_run _ _ _ _ h hp]; exact decide_eq_true hp

end Dispatch

/-! ### The decoder -/

/-- A chunk whose bytes are all there is read off the front of the list. -/
theorem decode_whole {t : Byte} {rest : List Byte} {i : Instr}
    (hi : chunkOf t (rest.getD 0 0) (rest.getD 1 0) (rest.getD 2 0) (rest.getD 3 0) = i)
    (hlength : i.length ≤ rest.length + 1) : decode (t :: rest) = .ok (i, rest.drop (i.length - 1)) := by
  subst hi
  exact if_pos hlength

/-- A chunk of which bytes are missing is an error. -/
theorem decode_cut {t : Byte} {rest : List Byte} {i : Instr}
    (hi : chunkOf t (rest.getD 0 0) (rest.getD 1 0) (rest.getD 2 0) (rest.getD 3 0) = i)
    (hlength : rest.length + 1 < i.length) : decode (t :: rest) = .error (cutError t) := by
  subst hi
  exact if_neg (Nat.not_le_of_lt hlength)

/-- The byte list holds no whole chunk at its front, and why: no byte at all, or fewer bytes after the tag of RGB, RGBA or
LUMA than it has (R51, R151). -/
def CutShort (bs : List Byte) (e : DecodeError) : Prop :=
  (bs = [] ∧ e = .noTag) ∨
  ∃ t rest, bs = t :: rest ∧
    ((t = 0xFE ∧ rest.length < 3 ∧ e = .cutRgb) ∨
     (t = 0xFF ∧ rest.length < 4 ∧ e = .cutRgba) ∨
     (0x80 ≤ t.toNat ∧ t.toNat ≤ 0xBF ∧ rest = [] ∧ e = .cutLuma))

theorem decode_of_cutShort {bs : List Byte} {e : DecodeError} (h : CutShort bs e) : decode bs = .error e := by
  rcases h with ⟨rfl, rfl⟩ | ⟨t, rest, rfl, ⟨rfl, hrest, rfl⟩ | ⟨rfl, hrest, rfl⟩ | ⟨hlow, hhigh, rfl, rfl⟩⟩
  · rfl
  · exact decode_cut (chunkOf_rgb _ _ _ _) (Nat.succ_lt_succ hrest)
  · exact decode_cut (chunkOf_rgba _ _ _ _) (Nat.succ_lt_succ hrest)
  · have hcategory : top2 t = 0b10#2 := (top2_eq_iff t _).2 ⟨hlow, Nat.lt_succ_of_le hhigh⟩
    obtain ⟨hrgb, hrgba⟩ := not_whole_tag_of_top2 (t := t) (by simp [hcategory])
    rw [decode_cut (chunkOf_luma _ _ _ _ hcategory) (by simp [Instr.length]), cutError, if_neg hrgb, if_neg hrgba]

/-- Every byte list begins with the bytes of a well-formed chunk, or is cut short. -/
theorem encode_append_or_cutShort (bs : List Byte) :
    (∃ i rest, i.wellFormed = true ∧ encode i ++ rest = bs) ∨ ∃ e, CutShort bs e := by
  rcases bs with _ | ⟨t, rest⟩
  · exact .inr ⟨.noTag, .inl ⟨rfl, rfl⟩⟩
  rcases tag_cases t with rfl | rfl | h | h | h | ⟨h, hp⟩
  case cons.inl =>
    rcases rest with _ | ⟨r, _ | ⟨g, _ | ⟨b, rest⟩⟩⟩
    case cons.cons.cons => exact .inl ⟨.rgb r g b, rest, rfl, rfl⟩
    all_goals exact .inr ⟨.cutRgb, .inr ⟨_, _, rfl, .inl ⟨rfl, by simp, rfl⟩⟩⟩
  case cons.inr.inl =>
    rcases rest with _ | ⟨r, _ | ⟨g, _ | ⟨b, _ | ⟨a, rest⟩⟩⟩⟩
    case cons.cons.cons.cons => exact .inl ⟨.rgba r g b a, rest, rfl, rfl⟩
    all_goals exact .inr ⟨.cutRgba, .inr ⟨_, _, rfl, .inr (.inl ⟨rfl, by simp, rfl⟩)⟩⟩
  · refine .inl ⟨.index (payload t), rest, rfl, ?_⟩
    rw [encode, ← h, top2_append_payload]
    rfl
  · refine .inl ⟨.diff (t.extractLsb' 4 2) (t.extractLsb' 2 2) (t.extractLsb' 0 2), rest, rfl, ?_⟩
    rw [encode, ← h, append_diff_tag_fields]
    rfl
  · rcases rest with _ | ⟨b, rest⟩
    · obtain ⟨hlow, hhigh⟩ := (top2_eq_iff t _).1 h
      exact .inr ⟨.cutLuma, .inr ⟨t, [], rfl, .inr (.inr ⟨hlow, Nat.le_of_lt_succ hhigh, rfl, rfl⟩)⟩⟩
    · refine .inl ⟨.luma (payload t) (b.extractLsb' 4 4) (b.extractLsb' 0 4), rest, rfl, ?_⟩
      rw [encode, ← h, top2_append_payload, append_nibbles]
      rfl
  · refine .inl ⟨.run (payload t), rest, decide_eq_true hp, ?_⟩
    rw [encode, ← h, top2_append_payload]
    rfl

end Sys2Proof.Machine
end

section
/-! The statements about the decoder and the encoder (30_encoding.md R53 to R61). -/

namespace Sys2Proof.Machine

/-- Settles O1: the tag of each operator selects it, and its fields are the parts its bytes were put together from. -/
theorem decodeOfEncodedChunk : Obligations.DecodeOfEncodedChunk := by
  intro i rest hwf
  cases i with
  | rgb r g b => exact decode_whole (i := .rgb r g b) (chunkOf_rgb _ _ _ _) (by simp [Instr.length])
  | rgba r g b a => exact decode_whole (i := .rgba r g b a) (chunkOf_rgba _ _ _ _) (by simp [Instr.length])
  | index idx =>
    refine decode_whole (i := .index idx) ?_ (by simp [Instr.length])
    rw [chunkOf_index _ _ _ _ (top2_append _ _), payload_append]
  | diff fr fg fb =>
    obtain ⟨hcategory, hr, hg, hb⟩ := diff_tag_fields fr fg fb
    refine decode_whole (i := .diff fr fg fb) ?_ (by simp [Instr.length])
    rw [chunkOf_diff _ _ _ _ hcategory, hr, hg, hb]
  | luma fgl frg fbg =>
    refine decode_whole (i := .luma fgl frg fbg) ?_ (by simp [Instr.length])
    rw [chunkOf_luma _ _ _ _ (top2_append _ _), payload_append]
    exact congrArg₂ (Instr.luma fgl) BitVec.extractLsb'_append_eq_left BitVec.extractLsb'_append_eq_right
  | run n =>
    refine decode_whole (i := .run n) ?_ (by simp [Instr.length])
    rw [chunkOf_run _ _ _ _ (top2_append _ _) (by simpa [Instr.wellFormed] using hwf), payload_append]

/-- Settles O2: a list that is not cut short is an encoding with bytes after it, which decodes to that chunk alone. -/
theorem encodeOfDecodedChunk : Obligations.EncodeOfDecodedChunk := by
  intro bs i rest h
  rcases encode_append_or_cutShort bs with ⟨j, more, hwf, rfl⟩ | ⟨e, hcut⟩
  · rw [decodeOfEncodedChunk j more hwf] at h
    cases h
    exact ⟨hwf, rfl⟩
  · rw [decode_of_cutShort hcut] at h
    exact nomatch h

/-- Settles O3: each range is a category of the tag or a whole-byte tag, and the fields are bit fields. -/
theorem everyTagSelectsItsOperator : Obligations.EveryTagSelectsItsOperator := by
  intro t b1 b2 b3 b4
  refine ⟨fun hhigh => ?_, fun hlow hhigh => ?_, fun hlow hhigh => ?_, fun hlow hhigh => ?_, ?_, ?_⟩
  · exact ⟨_, chunkOf_index _ _ _ _ ((top2_eq_iff t _).2 ⟨Nat.zero_le _, Nat.lt_succ_of_le hhigh⟩), toNat_field t 0 6⟩
  · exact ⟨_, _, _, chunkOf_diff _ _ _ _ ((top2_eq_iff t _).2 ⟨hlow, Nat.lt_succ_of_le hhigh⟩),
      toNat_field t 4 2, toNat_field t 2 2, toNat_field t 0 2⟩
  · exact ⟨_, _, _, chunkOf_luma _ _ _ _ ((top2_eq_iff t _).2 ⟨hlow, Nat.lt_succ_of_le hhigh⟩),
      toNat_field t 0 6, toNat_field b1 4 4, toNat_field b1 0 4⟩
  · have hpayload : (payload t).toNat ≤ 61 := by
      rw [toNat_payload]
      omega
    exact ⟨_, chunkOf_run _ _ _ _ ((top2_eq_iff t _).2 ⟨hlow, Nat.lt_of_le_of_lt hhigh (by decide)⟩) hpayload,
      toNat_field t 0 6⟩
  · rintro rfl
    exact chunkOf_rgb _ _ _ _
  · rintro rfl
    exact chunkOf_rgba _ _ _ _

/-- Settles O4: a list that is not cut short is an encoding with bytes after it, which decodes. -/
theorem decodeFailsOnlyWhenCut : Obligations.DecodeFailsOnlyWhenCut := by
  intro bs e
  refine ⟨fun h => ?_, decode_of_cutShort⟩
  rcases encode_append_or_cutShort bs with ⟨i, rest, hwf, rfl⟩ | ⟨e', hcut⟩
  · rw [decodeOfEncodedChunk i rest hwf] at h
    exact nomatch h
  · rw [decode_of_cutShort hcut] at h
    cases h
    exact hcut

/-- Settles O5: each word is the encoding of its chunk. -/
theorem specWordsDecode : Obligations.SpecWordsDecode :=
  ⟨decodeOfEncodedChunk (.rgb 10 20 30) [] rfl, decodeOfEncodedChunk (.rgba 1 2 3 128) [] rfl,
    decodeOfEncodedChunk (.index 9) [] rfl, decodeOfEncodedChunk (.diff 3 0 2) [] rfl,
    decodeOfEncodedChunk (.luma 34 15 0) [] rfl, decodeOfEncodedChunk (.run 2) [] rfl⟩

end Sys2Proof.Machine
end

section
/-! Where a step answers a next state, and where an operator stops (30_encoding.md R59, R61, 20_memory.md R30). -/

namespace Sys2Proof.Machine

/-! ### Commits -/

theorem commit_fault {s : State} (h : s.npix ≤ s.cnt) (p : Pixel) : s.commit p = .fault .pastImage :=
  if_neg (BitVec.not_lt.2 h)

theorem commitCached_fault {s : State} (h : s.npix ≤ s.cnt) (p : Pixel) : s.commitCached p = .fault .pastImage :=
  commit_fault (s := s.update p) h p

theorem trailingCommit_fault {s : State} (h : s.npix ≤ s.cnt) {n : Nat} (hbytes : s.bpos + (n + 1) ≤ s.decIn.length)
    (p : Pixel) : s.trailingCommit n p = .fault .pastImage := by
  rw [trailingCommit_whole s n p hbytes]
  exact commitCached_fault (s := s.advance (n + 1)) h p

/-- A chunk with trailing bytes answers a next state whether they are all there or not. -/
theorem trailingCommit_answers {s : State} (h : s.cnt < s.npix) (n : Nat) (p : Pixel) :
    ∃ t, s.trailingCommit n p = .next t := by
  by_cases hbytes : s.bpos + (n + 1) ≤ s.decIn.length
  · exact ⟨_, (trailingCommit_whole s n p hbytes).trans (commitCached_next (s.advance (n + 1)) p h)⟩
  · exact ⟨_, trailingCommit_cut s n p (Nat.lt_of_not_le hbytes)⟩

/-! ### RUN -/

theorem execRun_refused {n : BitVec 6} (h : 61 < n.toNat) (s : State) : execRun n s = .refused .noSuchChunk := if_pos h

theorem execRun_fault {n : BitVec 6} (hn : n.toNat ≤ 61) {s : State} (h : s.npix ≤ s.cnt) :
    execRun n s = .fault .pastImage := by
  rw [execRun, if_neg (Nat.not_lt.2 hn), if_neg (BitVec.not_lt.2 h)]

theorem execRun_answers {n : BitVec 6} (hn : n.toNat ≤ 61) {s : State} (h : s.cnt < s.npix) :
    ∃ t, execRun n s = .next t := by
  rw [execRun, if_neg (Nat.not_lt.2 hn), if_pos h]
  exact ⟨_, rfl⟩

/-! ### Operators and steps -/

/-- Below NPIX every well-formed chunk has an effect, cut short or not. -/
theorem exec_answers {i : Instr} (hwf : i.wellFormed = true) {s : State} (h : s.cnt < s.npix) :
    ∃ t, exec i s = .next t := by
  cases i with
  | rgb r g b => exact trailingCommit_answers h 3 _
  | rgba r g b a => exact trailingCommit_answers h 4 _
  | index idx => exact ⟨_, if_pos h⟩
  | diff fr fg fb => exact ⟨_, commitCached_next (s.advance 1) _ h⟩
  | luma fgl frg fbg => exact trailingCommit_answers h 1 _
  | run n => exact execRun_answers (of_decide_eq_true hwf) h

theorem decodeStep_answers {s : State} (h : s.cnt ≤ s.npix) : ∃ t, s.decodeStep = .next t := by
  unfold State.decodeStep
  split
  next => exact ⟨_, rfl⟩
  next hopen =>
    have hne : s.cnt ≠ s.npix := fun heq => hopen (by simp [heq])
    exact exec_answers (chunkOf_wellFormed _ _ _ _ _) (BitVec.lt_of_le_ne h hne)

theorem encodeStep_answers (s : State) : ∃ t, s.encodeStep = .next t := by
  by_cases hfull : s.cnt = s.npix
  · exact ⟨_, encodeStep_of_full hfull⟩
  · cases hin : s.inPixel with
    | none => exact ⟨_, encodeStep_of_noPixel hfull hin⟩
    | some curr => exact ⟨_, encodeStep_of_pixel hfull hin⟩

theorem runPse_answers {s : State} (h : s.cnt ≤ s.npix) : ∃ t, s.runPse = .next t := by
  by_cases hphase : s.phase = .body
  · cases hmode : s.mode with
    | dec => rw [runPse_dec hphase hmode]; exact decodeStep_answers h
    | enc => rw [runPse_enc hphase hmode]; exact encodeStep_answers s
  · exact ⟨s, runPse_still hphase⟩

/-- Settles O41: a command answers a state, and so does the PSE's step since CNT never exceeds NPIX. -/
theorem stepAlwaysAnswers : Obligations.StepAlwaysAnswers := by
  intro s h
  by_cases hquiet : NoCommand s
  · rw [step_of_noCommand hquiet]
    exact runPse_answers (s := { s with port := s.port.tail }) h.count
  · cases hport : s.port with
    | nil => exact absurd (.inl hport) hquiet
    | cons e more =>
      cases e with
      | quiet => exact absurd (.inr ⟨more, hport⟩) hquiet
      | startDec _ _ | startEnc _ _ _ | abort | hardReset => exact ⟨_, step_of_command hport rfl⟩

/-- Settles O20: RUN refuses the two stored values that do not exist, and every whole chunk ends in a commit, or in RUN's
own test of CNT. -/
theorem stopsOutsideTheSpec : Obligations.StopsOutsideTheSpec := by
  intro s
  refine ⟨fun n hn => execRun_refused hn s, fun hfull i hwf hbytes => ?_⟩
  cases i with
  | rgb r g b => exact trailingCommit_fault hfull hbytes _
  | rgba r g b a => exact trailingCommit_fault hfull hbytes _
  | index idx => exact commit_fault (s := s.advance 1) hfull _
  | diff fr fg fb => exact commitCached_fault (s := s.advance 1) hfull _
  | luma fgl frg fbg => exact trailingCommit_fault hfull hbytes _
  | run n => exact execRun_fault (of_decide_eq_true hwf) hfull

end Sys2Proof.Machine
end

section
/-! SUPPORT. Rules about the delta unit and the biased fields (30_encoding.md R57, 40_cache_and_delta.md R76, R77). -/

namespace Sys2Proof.Machine

/-- The sum of R76, read as an integer. -/
theorem toNat_add8 (x : Byte) (d : Int) : ((add8 x d).toNat : Int) = (x.toNat + d) % 256 := by
  rw [add8, BitVec.toNat_ofInt]
  omega

/-- Only the residue of the delta modulo 256 matters (R76). -/
theorem add8_congr {x : Byte} {d e : Int} (h : d % 256 = e % 256) : add8 x d = add8 x e := by
  apply BitVec.eq_of_toNat_eq
  have hd := toNat_add8 x d
  have he := toNat_add8 x e
  omega

theorem add8_add8 (x : Byte) (d e : Int) : add8 (add8 x d) e = add8 x (d + e) := by
  apply BitVec.eq_of_toNat_eq
  have hinner := toNat_add8 x d
  have houter := toNat_add8 (add8 x d) e
  have hsum := toNat_add8 x (d + e)
  omega

/-- The difference of R77, read as an integer. -/
theorem toNat_sub8 (x y : Byte) : ((sub8 x y).toNat : Int) = (x.toNat - y.toNat) % 256 := by
  rw [sub8, BitVec.toNat_ofInt]
  omega

theorem add8_sub8 (x y : Byte) : add8 y (sub8 x y).toNat = x := by
  apply BitVec.eq_of_toNat_eq
  have hadd := toNat_add8 y (sub8 x y).toNat
  have hsub := toNat_sub8 x y
  omega

/-- A delta whose biased form fits `w` bits comes back from its field, modulo 256 (R57, R77). -/
theorem unbias_biased {w : Nat} {d : Byte} (h : (d.toNat + 2 ^ (w - 1)) % 256 < 2 ^ w) :
    unbias w (biased w d) % 256 = d.toNat % 256 := by
  rw [unbias, biased, BitVec.toNat_ofNat, Nat.mod_eq_of_lt h]
  push_cast
  omega

theorem unbias_of_inDiff {d : Byte} (h : inDiff d = true) : unbias 2 (biased 2 d) % 256 = d.toNat % 256 :=
  unbias_biased (Nat.lt_succ_of_le (of_decide_eq_true h))

theorem unbias_of_inLumaG {d : Byte} (h : inLumaG d = true) : unbias 6 (biased 6 d) % 256 = d.toNat % 256 :=
  unbias_biased (Nat.lt_succ_of_le (of_decide_eq_true h))

theorem unbias_of_inLumaRB {e : Byte} (h : inLumaRB e = true) : unbias 4 (biased 4 e) % 256 = e.toNat % 256 :=
  unbias_biased (Nat.lt_succ_of_le (of_decide_eq_true h))

/-- A red or blue LUMA delta is the sum of the difference from green and the green delta (R92). -/
theorem add8_luma {x y dg : Byte} {fgl : BitVec 6} {f : BitVec 4} (hg : unbias 6 fgl % 256 = dg.toNat % 256)
    (hf : unbias 4 f % 256 = (sub8 (sub8 x y) dg).toNat % 256) : add8 y (unbias 4 f + unbias 6 fgl) = x := by
  have hdelta := toNat_sub8 (sub8 x y) dg
  rw [add8_congr (e := (sub8 x y).toNat) (by omega), add8_sub8]

end Sys2Proof.Machine
end

section
/-! The statements about the hash, the delta unit and the cache (40_cache_and_delta.md R70, R74, R76 to R78). -/

namespace Sys2Proof.Machine

/-- Settles O6: each channel may be taken modulo 64 before the sum. -/
theorem hashNeedsOnlyLowSixBits : Obligations.HashNeedsOnlyLowSixBits := by
  intro p q
  refine ⟨rfl, fun hr hg hb ha => Fin.ext ?_⟩
  have residues {x y : Byte} (h : x.setWidth 6 = y.setWidth 6) : x.toNat % 64 = y.toNat % 64 := by
    simpa using congrArg BitVec.toNat h
  have hr := residues hr
  have hg := residues hg
  have hb := residues hb
  have ha := residues ha
  simp only [cacheIndex, Fin.val_ofNat]
  omega

/-- Settles O7. -/
theorem deltaAddsCompose : Obligations.DeltaAddsCompose := fun x d1 d2 => ⟨toNat_add8 x d1, add8_add8 x d1 d2⟩

/-- Settles O8: two bytes that take `y` to the same byte are equal modulo 256, hence equal. -/
theorem subtractIsTheDelta : Obligations.SubtractIsTheDelta := by
  intro x y d
  constructor
  · rintro rfl
    apply BitVec.eq_of_toNat_eq
    have hadd := toNat_add8 y d.toNat
    have hsub := toNat_sub8 (add8 y d.toNat) y
    omega
  · rintro rfl
    exact add8_sub8 x y

/-- Settles O9: the bias moves each signed range to the bytes from 0 on, and the sign of a byte is its top bit. -/
theorem rangeTestsReadSigned : Obligations.RangeTestsReadSigned := by
  intro d
  simp only [inDiff, inLumaG, inLumaRB, decide_eq_true_eq, BitVec.toInt_eq_toNat_cond]
  refine ⟨?_, ?_, ?_⟩ <;> omega

/-- Settles O10: each field gives its delta back modulo 256, and adding the delta undoes the subtraction. -/
theorem storedDeltasDecodeBack : Obligations.StoredDeltasDecodeBack := by
  intro p q
  constructor
  · intro hr hg hb
    simp only [diffPixel, add8_congr (unbias_of_inDiff hr), add8_congr (unbias_of_inDiff hg),
      add8_congr (unbias_of_inDiff hb), add8_sub8]
  · intro hg hr hb
    have hgreen := unbias_of_inLumaG hg
    simp only [lumaPixel, add8_luma hgreen (unbias_of_inLumaRB hr), add8_congr hgreen, add8_sub8,
      add8_luma hgreen (unbias_of_inLumaRB hb)]

theorem cacheInv_command {s t : State} (h : CacheInv s) {e : HostEvent} (hc : s.command e = some t) : CacheInv t := by
  cases e with
  | quiet => exact nomatch hc
  | startDec n source =>
    injection hc with hc
    subst hc
    unfold State.startDec
    split
    · exact h
    · exact cacheInv_zeroed _ rfl
  | startEnc n channels samples =>
    injection hc with hc
    subst hc
    unfold State.startEnc
    split
    · exact h
    · split
      · exact cacheInv_zeroed _ rfl
      · exact cacheInv_congr rfl h
  | abort | hardReset =>
    injection hc with hc
    subst hc
    exact cacheInv_zeroed _ rfl

theorem cacheInv_runPse {s t : State} (h : CacheInv s) (hstep : s.runPse = .next t) : CacheInv t := by
  rcases runPse_cases hstep with ⟨-, rfl⟩ | ⟨-, -, hdec⟩ | ⟨-, -, henc⟩
  · exact h
  · rcases decodeStep_outcomes hdec with ⟨-, rfl⟩ | ⟨-, -, rfl⟩ | ⟨cached, n, p, k, -, -, -, rfl⟩
    · exact cacheInv_congr (by rw [decodeClose_record]) h
    · exact cacheInv_congr rfl h
    · exact cacheInv_afterChunk h cached n p k
  · rcases encodeStep_cases henc with ⟨-, rfl⟩ | ⟨-, rfl⟩ | ⟨curr, -, rfl⟩
    · exact cacheInv_congr (by rw [encodeClose_rest]) h
    · exact h
    · exact cacheInv_encodePixel h curr

/-- Settles O40: a command zeroes the cache or keeps it, and a step of the PSE writes at most one pixel to its own slot. -/
theorem stepKeepsCacheInv : Obligations.StepKeepsCacheInv := by
  intro s t h hstep
  rcases step_cases hstep with ⟨e, more, -, hc⟩ | ⟨-, hpse⟩
  · exact cacheInv_command (s := { s with port := more }) h hc
  · exact cacheInv_runPse (s := { s with port := s.port.tail }) h hpse

end Sys2Proof.Machine
end

section
/-! SUPPORT. The datapath of the PSE, PREV and CACHE alone: the pixels a list of chunks stands for, and the decode of the
bytes of a list of chunks, which outputs exactly those pixels (41_decode.md R85 to R95). -/

namespace Sys2Proof.Machine

/-! ### The datapath -/

/-- The two registers that give a chunk its meaning (R11, R12). -/
structure Datapath where
  cache : Vector Pixel 64
  prev : Pixel

def State.datapath (s : State) : Datapath := ⟨s.cache, s.prev⟩

namespace Datapath

def lookup (d : Datapath) (i : Fin 64) : Pixel := d.cache[i]

/-- `PREV <- p` (R90, R93). -/
def setPrev (d : Datapath) (p : Pixel) : Datapath := { d with prev := p }

/-- `update(p); PREV <- p` (R95). -/
def store (d : Datapath) (p : Pixel) : Datapath := ⟨d.cache.set (cacheIndex p).val p (cacheIndex p).isLt, p⟩

/-- The pixel a chunk forms (R88 to R93). -/
def pixel (d : Datapath) : Instr → Pixel
  | .rgb r g b => ⟨r, g, b, d.prev.a⟩
  | .rgba r g b a => ⟨r, g, b, a⟩
  | .index idx => d.lookup idx.toFin
  | .diff fr fg fb => diffPixel d.prev fr fg fb
  | .luma fgl frg fbg => lumaPixel d.prev fgl frg fbg
  | .run _ => d.prev

end Datapath

/-- The chunks whose pixel is written to the cache: all but INDEX and RUN (R73, R95). -/
def writesCache : Instr → Bool
  | .rgb _ _ _ => true
  | .rgba _ _ _ _ => true
  | .index _ => false
  | .diff _ _ _ => true
  | .luma _ _ _ => true
  | .run _ => false

namespace Datapath

/-- The datapath a chunk leaves. -/
def after (d : Datapath) (i : Instr) : Datapath := bif writesCache i then d.store (d.pixel i) else d.setPrev (d.pixel i)

/-- The pixels a list of chunks stands for. -/
def output (d : Datapath) : List Instr → List Pixel
  | [] => []
  | i :: more => List.replicate (pixelsOf i) (d.pixel i) ++ (d.after i).output more

theorem lookup_store (d : Datapath) (p : Pixel) (i : Fin 64) :
    (d.store p).lookup i = if i = cacheIndex p then p else d.lookup i :=
  lookup_update { State.reset with cache := d.cache } p i

@[simp] theorem after_run (d : Datapath) (n : BitVec 6) : d.after (.run n) = d := rfl

end Datapath

/-! ### One chunk -/

theorem length_encode (i : Instr) : (encode i).length = i.length := by cases i <;> rfl

/-- Every chunk has at least its tag. -/
theorem length_le_flatMap_encode (cs : List Instr) : cs.length ≤ (cs.flatMap encode).length := by
  induction cs with
  | nil => exact Nat.le_refl 0
  | cons i more ih =>
    have hone := length_pos i
    rw [List.flatMap_cons, List.length_append, length_encode, List.length_cons]
    omega

theorem pixelsOf_pos (i : Instr) : 1 ≤ pixelsOf i := by cases i <;> simp [pixelsOf, runLength]

/-- The state after a whole chunk (R95). -/
def State.runChunk (s : State) (i : Instr) : State :=
  s.afterChunk (writesCache i) i.length (s.datapath.pixel i) (pixelsOf i)

theorem runChunk_rest (s : State) (i : Instr) :
    s.runChunk i = { s with
      cache := (s.runChunk i).cache, prev := (s.runChunk i).prev, bpos := s.bpos + (encode i).length,
      cnt := s.cnt + BitVec.ofNat 64 (pixelsOf i), decOut := (s.runChunk i).decOut } := by
  unfold State.runChunk
  rw [afterChunk_rest, length_encode]

theorem datapath_runChunk (s : State) (i : Instr) : (s.runChunk i).datapath = s.datapath.after i := by
  unfold State.runChunk State.afterChunk State.datapath Datapath.after
  cases writesCache i <;> simp [Datapath.setPrev, Datapath.store]

/-- A whole chunk whose pixels all find room does what its datapath says. -/
theorem exec_whole {i : Instr} {s : State} (hwf : i.wellFormed = true) (hbytes : s.bpos + i.length ≤ s.decIn.length)
    (hroom : s.cnt.toNat + pixelsOf i ≤ s.npix.toNat) : exec i s = .next (s.runChunk i) := by
  have hpos := pixelsOf_pos i
  have hlt : s.cnt < s.npix := by
    rw [BitVec.lt_def]
    omega
  have trailing (n : Nat) (p : Pixel) (hn : s.bpos + (n + 1) ≤ s.decIn.length) :
      s.trailingCommit n p = .next (s.afterChunk true (n + 1) p 1) :=
    (trailingCommit_whole s n p hn).trans (commitCached_next (s.advance (n + 1)) p hlt)
  cases i with
  | rgb r g b => exact trailing 3 _ hbytes
  | rgba r g b a => exact trailing 4 _ hbytes
  | index idx => exact if_pos hlt
  | diff fr fg fb => exact commitCached_next (s.advance 1) _ hlt
  | luma fgl frg fbg => exact trailing 1 _ hbytes
  | run n =>
    have hn : n.toNat ≤ 61 := of_decide_eq_true hwf
    have hall : min (runLength n) (s.npix.toNat - s.cnt.toNat) = runLength n :=
      Nat.min_eq_left (by simp only [pixelsOf] at hroom; omega)
    have hkept : s.runChunk (.run n) = (s.advance 1).outPixels s.prev (runLength n) :=
      setPrev_self _ _ (outPixels_prev _ _ _)
    rw [exec, execRun, if_neg (Nat.not_lt.2 hn), if_pos hlt, hall, hkept]

/-- The decode step over the bytes of a chunk runs that chunk. -/
theorem decodeStep_of_chunk {i : Instr} {s : State} {rest : List Byte} (hbytes : s.decIn.drop s.bpos = encode i ++ rest)
    (hwf : i.wellFormed = true) (hroom : s.cnt.toNat + pixelsOf i ≤ s.npix.toNat) :
    s.decodeStep = .next (s.runChunk i) := by
  have hchunk : s.fetchChunk = i := fetchChunk_of_decode ((congrArg decode hbytes).trans (decodeOfEncodedChunk i rest hwf))
  have hlength := length_encode i
  have hone := length_pos i
  have hpixels := pixelsOf_pos i
  have hsupplied := length_of_drop_eq hbytes (List.ne_nil_of_length_pos (by omega))
  have havail : s.avail 1 = true := (avail_iff s 1).2 (by omega)
  have hopen : s.cnt ≠ s.npix := fun h => by rw [h] at hroom; omega
  rw [State.decodeStep, hchunk]
  simp only [hopen, havail, decide_false, Bool.not_true, Bool.or_self, Bool.false_eq_true, if_false]
  exact exec_whole hwf (by omega) hroom

/-- With all pixels output the decode step closes (R86). -/
theorem decodeStep_of_full {s : State} (h : s.cnt = s.npix) : s.decodeStep = .next s.decodeClose := if_pos (by simp [h])

/-! ### The pixels in DEC_OUT -/

/-- A partial function answers on a whole list exactly where it answers on each element. -/
theorem mapM_eq_some_iff {α β : Type} {f : α → Option β} {l : List α} {out : List β} :
    l.mapM f = some out ↔ l.map f = out.map some := by
  induction l generalizing out with
  | nil => cases out <;> simp
  | cons a more ih =>
    rw [List.mapM_cons]
    cases out <;> simp [Option.bind_eq_some_iff, ih]

/-- The decoded pixels depend on CNT and DEC_OUT alone. -/
theorem decodedPixels_congr {s t : State} (hcnt : t.cnt = s.cnt) (hout : t.decOut = s.decOut) :
    t.decodedPixels = s.decodedPixels := by
  simp only [State.decodedPixels, hcnt, hout]

/-- A pixel written to DEC_OUT is decoded after those that are there. -/
theorem decodedPixels_outPixel {s : State} (hlt : s.cnt < s.npix) {out : List Pixel} (h : s.decodedPixels = some out)
    (p : Pixel) : (s.outPixel p).decodedPixels = some (out ++ [p]) := by
  have hkept (j : Nat) (hj : j ∈ List.range s.cnt.toNat) :
      (s.outPixel p).decOut.readPixel j = s.decOut.readPixel j := by
    have hj := List.mem_range.1 hj
    have hbytes : (s.outPixel p).decOut.readBytes (4 * j) 4 = s.decOut.readBytes (4 * j) 4 :=
      readBytes_congr _ _ _ _ fun b _ hb => read_writeBytes_outside _ _ _ _ (.inl (by rw [pixelAddr]; omega))
    rw [Memory.readPixel, Memory.readPixel, hbytes]
  have hnew : (s.outPixel p).decOut.readPixel s.cnt.toNat = some p := by
    have hbytes : (s.outPixel p).decOut.readBytes (4 * s.cnt.toNat) 4 = some (pixelBytes p) :=
      readBytes_writeBytes s.decOut (pixelAddr s.cnt) (pixelBytes p)
    rw [Memory.readPixel, hbytes]
    rfl
  rw [State.decodedPixels, mapM_eq_some_iff] at h ⊢
  rw [outPixel_cnt, cnt_succ s hlt, List.range_succ, List.map_append, List.map_congr_left hkept, h, List.map_singleton,
    hnew, List.map_append, List.map_singleton]

theorem decodedPixels_outPixels {s : State} {k : Nat} (hroom : s.cnt.toNat + k ≤ s.npix.toNat) {out : List Pixel}
    (h : s.decodedPixels = some out) (p : Pixel) :
    (s.outPixels p k).decodedPixels = some (out ++ List.replicate k p) := by
  induction k generalizing s out with
  | zero => simpa [State.outPixels] using h
  | succ k ih =>
    have hlt : s.cnt < s.npix := by
      rw [BitVec.lt_def]
      omega
    have hcnt := cnt_succ s hlt
    rw [State.outPixels, ih (s := s.outPixel p) (by simp only [outPixel_cnt, outPixel_npix]; omega)
      (decodedPixels_outPixel hlt h p), List.append_assoc, List.replicate_succ, List.singleton_append]

theorem decodedPixels_runChunk {s : State} {i : Instr} (hroom : s.cnt.toNat + pixelsOf i ≤ s.npix.toNat)
    {out : List Pixel} (h : s.decodedPixels = some out) :
    (s.runChunk i).decodedPixels = some (out ++ List.replicate (pixelsOf i) (s.datapath.pixel i)) := by
  unfold State.runChunk State.afterChunk
  cases writesCache i
  · exact decodedPixels_outPixels (s := s.advance i.length) hroom h _
  · exact decodedPixels_outPixels (s := (s.update (s.datapath.pixel i)).advance i.length) hroom h _

/-! ### A list of chunks -/

/-- A list of chunks changes the cache, PREV, BPOS, CNT and DEC_OUT at most. -/
theorem runChunks_rest (s : State) (cs : List Instr) :
    cs.foldl State.runChunk s = { s with
      cache := (cs.foldl State.runChunk s).cache, prev := (cs.foldl State.runChunk s).prev,
      bpos := s.bpos + (cs.flatMap encode).length, cnt := s.cnt + BitVec.ofNat 64 (cs.map pixelsOf).sum,
      decOut := (cs.foldl State.runChunk s).decOut } := by
  induction cs generalizing s with
  | nil => simp
  | cons i more ih =>
    rw [List.foldl_cons, ih, runChunk_rest]
    simp [BitVec.ofNat_add, Nat.add_assoc, BitVec.add_assoc]

theorem decodedPixels_runChunks {s : State} {cs : List Instr}
    (hroom : s.cnt.toNat + (cs.map pixelsOf).sum ≤ s.npix.toNat) {out : List Pixel} (h : s.decodedPixels = some out) :
    (cs.foldl State.runChunk s).decodedPixels = some (out ++ s.datapath.output cs) := by
  induction cs generalizing s out with
  | nil => simpa [Datapath.output] using h
  | cons i more ih =>
    rw [List.map_cons, List.sum_cons] at hroom
    have hcnt : (s.runChunk i).cnt.toNat = s.cnt.toNat + pixelsOf i :=
      afterChunk_cnt_toNat _ _ _ (by omega)
    have hnpix : (s.runChunk i).npix = s.npix := by rw [runChunk_rest]
    rw [List.foldl_cons, ih (by rw [hcnt, hnpix]; omega) (decodedPixels_runChunk (by omega) h), datapath_runChunk,
      List.append_assoc]
    rfl

/-- `k` steps of the machine, with the types of the model in place of the fields of `core`. -/
def steps (k : Nat) (s : State) : Result := Host.Core.run core k s

theorem steps_succ {s t : State} (h : step s = .next t) (k : Nat) : steps (k + 1) s = steps k t :=
  run_of_step (M := core) h

/-- While pixels are wanted the decoder runs chunk after chunk. -/
theorem steps_chunks {s : State} {cs : List Instr} {rest : List Byte} (hphase : s.phase = .body) (hmode : s.mode = .dec)
    (hport : s.port = []) (hbytes : s.decIn.drop s.bpos = cs.flatMap encode ++ rest)
    (hwf : ∀ i ∈ cs, i.wellFormed = true) (hroom : s.cnt.toNat + (cs.map pixelsOf).sum ≤ s.npix.toNat) (k : Nat) :
    steps (cs.length + k) s = steps k (cs.foldl State.runChunk s) := by
  induction cs generalizing s with
  | nil => exact congrArg (steps · s) (Nat.zero_add k)
  | cons i more ih =>
    rw [List.map_cons, List.sum_cons] at hroom
    rw [List.flatMap_cons, List.append_assoc] at hbytes
    have hstep : step s = .next (s.runChunk i) :=
      (step_of_empty_port hport).trans <| (runPse_dec hphase hmode).trans <|
        decodeStep_of_chunk hbytes (hwf i List.mem_cons_self) (by omega)
    have hcnt : (s.runChunk i).cnt.toNat = s.cnt.toNat + pixelsOf i := afterChunk_cnt_toNat _ _ _ (by omega)
    have hrest := runChunk_rest s i
    rw [List.length_cons, Nat.add_right_comm, steps_succ hstep, List.foldl_cons]
    refine ih (by rw [hrest]; exact hphase) (by rw [hrest]; exact hmode) (by rw [hrest]; exact hport) ?_
      (fun j hj => hwf j (List.mem_cons_of_mem i hj)) ?_
    · rw [hrest]
      dsimp only
      rw [← List.drop_drop, hbytes, List.drop_left]
    · rw [hcnt, hrest]
      dsimp only
      omega

/-! ### A whole decode -/

/-- Outside BODY a machine with no command to come stays as it is. -/
theorem steps_still {s : State} (hphase : s.phase ≠ .body) (hport : s.port = []) (k : Nat) :
    steps k s = .next s := by
  induction k with
  | zero => rfl
  | succ k ih => rwa [steps_succ ((step_of_empty_port hport).trans (runPse_still hphase))]

/-- The state in which START_DEC leaves the reset machine (R97, R176). -/
def decodeStart (bytes : List Byte) (n : Count) : State :=
  { State.reset.streamStart .dec n false with decIn := bytes, decOut := Memory.empty }

theorem step_startDec (bytes : List Byte) (n : Count) :
    step { State.reset with port := [.startDec n bytes] } = .next (decodeStart bytes n) :=
  step_of_command rfl (congrArg some (startDec_accepted (s := State.reset) nofun n bytes))

/-- The decoder over chunks that give exactly `n` pixels runs them all and then takes its closing step, whatever bytes
follow. -/
theorem wholeDecode_of_chunks {cs : List Instr} {n : Count} (hwf : ∀ i ∈ cs, i.wellFormed = true)
    (hcount : (cs.map pixelsOf).sum = n.toNat) (rest : List Byte) :
    wholeDecode (cs.flatMap encode ++ rest) n =
      .next (cs.foldl State.runChunk (decodeStart (cs.flatMap encode ++ rest) n)).decodeClose := by
  have hlength : cs.length ≤ (cs.flatMap encode ++ rest).length := by
    rw [List.length_append]
    exact Nat.le_add_right_of_le (length_le_flatMap_encode cs)
  obtain ⟨spare, hspare⟩ := Nat.exists_eq_add_of_le hlength
  generalize hbytes : cs.flatMap encode ++ rest = bytes at hspare ⊢
  have hrest := runChunks_rest (decodeStart bytes n) cs
  have hfull : (cs.foldl State.runChunk (decodeStart bytes n)).cnt =
      (cs.foldl State.runChunk (decodeStart bytes n)).npix := by
    rw [hrest, hcount, BitVec.ofNat_toNat]
    exact (BitVec.zero_add _).trans (BitVec.setWidth_eq n)
  have hclose : step (cs.foldl State.runChunk (decodeStart bytes n)) =
      .next (cs.foldl State.runChunk (decodeStart bytes n)).decodeClose :=
    (step_of_empty_port (by rw [hrest]; rfl)).trans <|
      (runPse_dec (by rw [hrest]; rfl) (by rw [hrest]; rfl)).trans (decodeStep_of_full hfull)
  calc wholeDecode bytes n
      = steps (bytes.length + 1) (decodeStart bytes n) := steps_succ (step_startDec bytes n) _
    _ = steps (spare + 1) (cs.foldl State.runChunk (decodeStart bytes n)) := by
      rw [hspare, Nat.add_assoc]
      exact steps_chunks (s := decodeStart bytes n) rfl rfl rfl hbytes.symm hwf
        (by rw [hcount]; exact Nat.le_of_eq (Nat.zero_add _)) _
    _ = steps spare (cs.foldl State.runChunk (decodeStart bytes n)).decodeClose := steps_succ hclose spare
    _ = .next (cs.foldl State.runChunk (decodeStart bytes n)).decodeClose :=
      steps_still (by rw [decodeClose_record]; nofun) (by rw [decodeClose_record, hrest]; rfl) spare

/-- The pixels in DEC_OUT at the end of such a decode. -/
theorem decodedPixels_wholeDecode {cs : List Instr} {n : Count} (hcount : (cs.map pixelsOf).sum = n.toNat)
    (bytes : List Byte) :
    (cs.foldl State.runChunk (decodeStart bytes n)).decodeClose.decodedPixels =
      some ((decodeStart bytes n).datapath.output cs) := by
  rw [decodedPixels_congr (s := cs.foldl State.runChunk (decodeStart bytes n)) (by rw [decodeClose_record])
    (by rw [decodeClose_record])]
  exact decodedPixels_runChunks (s := decodeStart bytes n) (out := [])
    (by rw [hcount]; exact Nat.le_of_eq (Nat.zero_add _)) rfl

end Sys2Proof.Machine
end

section
/-! SUPPORT. The chunks an encode emits, and the encode of a whole image, whose output is exactly the bytes of those chunks
and the end marker (42_encode.md R110 to R127). -/

namespace Sys2Proof.Machine

/-! ### The chunks of an encode -/

/-- The RUN chunk of the pending run, where there is one (R114). -/
def State.pendingRun (s : State) : List Instr := if s.runLen = 0 then [] else [.run (s.runLen - 1)]

/-- The chunk of a pixel that differs from PREV (R115 to R120). -/
def State.chunkFor (s : State) (curr : Pixel) : Instr :=
  if s.lookup (cacheIndex curr) = curr then .index (BitVec.ofFin (cacheIndex curr))
  else literalChunk s.hasAlpha s.prev curr

/-- The chunks one encode step emits (R112, R114, R123). -/
def State.chunksOf (s : State) (curr : Pixel) : List Instr :=
  if curr = s.prev then (if s.runLen + 1 = 62 then [.run 61] else []) else s.pendingRun ++ [s.chunkFor curr]

/-- The chunks the rest of an encode emits, the end flush included (R124). -/
def State.emitted (s : State) : List Pixel → List Instr
  | [] => s.pendingRun
  | p :: more => s.chunksOf p ++ (s.encodePixel p).emitted more

/-! ### Their bytes in ENC_OUT -/

/-- From `s` to `t` the bytes `bs` are written to ENC_OUT from BPOS on, and BPOS moves past them (R35). -/
def Streams (s t : State) (bs : List Byte) : Prop :=
  t.encOut = s.encOut.writeBytes s.bpos bs ∧ t.bpos = s.bpos + bs.length

theorem Streams.trans {s t u : State} {xs ys : List Byte} (h1 : Streams s t xs) (h2 : Streams t u ys) :
    Streams s u (xs ++ ys) := by
  obtain ⟨ho1, hb1⟩ := h1
  obtain ⟨ho2, hb2⟩ := h2
  exact ⟨by rw [writeBytes_append, ho2, ho1, hb1], by rw [hb2, hb1, List.length_append, Nat.add_assoc]⟩

theorem streams_outBytes (s : State) (bs : List Byte) : Streams s (s.outBytes bs) bs := ⟨rfl, rfl⟩

theorem streams_flushRun (s : State) : Streams s s.flushRun (s.pendingRun.flatMap encode) := by
  unfold State.flushRun State.pendingRun
  split
  · exact ⟨rfl, rfl⟩
  · exact streams_outBytes s (encode (.run (s.runLen - 1)))

theorem streams_selectChunk (s : State) (curr : Pixel) : Streams s (s.selectChunk curr) (encode (s.chunkFor curr)) := by
  unfold State.selectChunk State.chunkFor
  split
  · exact streams_outBytes s _
  · exact streams_outBytes (s.update curr) _

/-- The run flush before a chunk has no part in the choice of it. -/
theorem chunkFor_flushRun (s : State) (curr : Pixel) : s.flushRun.chunkFor curr = s.chunkFor curr := by
  simp only [State.chunkFor, lookup_of_cache (flushRun_cache s), flushRun_hasAlpha, flushRun_prev]

/-- One encode step writes the bytes of its chunks (R123). -/
theorem streams_encodePixel (s : State) (curr : Pixel) :
    Streams s (s.encodePixel curr) ((s.chunksOf curr).flatMap encode) := by
  unfold State.encodePixel State.chunksOf
  split
  · have hcount : Streams s s.countRun ((if s.runLen + 1 = 62 then [Instr.run 61] else []).flatMap encode) := by
      split
      next hfull => rw [countRun_full hfull]; exact streams_outBytes s (encode (.run 61))
      next hgrow => rw [countRun_grow hgrow]; exact ⟨rfl, rfl⟩
    exact ⟨(firstPixelFixup_encOut _ curr).trans hcount.1, (firstPixelFixup_bpos _ curr).trans hcount.2⟩
  · rw [List.flatMap_append, List.flatMap_singleton, ← chunkFor_flushRun]
    exact (streams_flushRun s).trans (streams_selectChunk s.flushRun curr)

/-- The rest of an encode writes the bytes of its chunks and the end marker (R125). -/
theorem streams_encodeAll (s : State) (ps : List Pixel) :
    Streams s (ps.foldl State.encodePixel s).encodeClose ((s.emitted ps).flatMap encode ++ endMarker) := by
  induction ps generalizing s with
  | nil => exact (streams_flushRun s).trans (streams_outBytes s.flushRun endMarker)
  | cons p more ih =>
    rw [State.emitted, List.flatMap_append, List.append_assoc]
    exact (streams_encodePixel s p).trans (ih (s.encodePixel p))

/-! ### The run through the pixels -/

/-- The input pixel that claims speak of is the machine's. -/
theorem inPixel_of_inputPixel {s : State} {c : Nat} {p : Pixel} (halpha : s.hasAlpha = decide (c = 4))
    (hlt : s.cnt < s.npix) (h : inputPixel c s.encIn s.cnt.toNat = some p) : s.inPixel = some p := by
  unfold inputPixel at h
  split at h
  next hsamples =>
    cases h
    exact inPixel_rgb hlt halpha hsamples
  next hsamples =>
    cases h
    exact inPixel_rgba hlt halpha hsamples
  · exact nomatch h

/-- While the host's pixels last the encoder codes one after another, and then it closes. -/
theorem steps_encode {s : State} {c : Nat} {ps : List Pixel} (hphase : s.phase = .body) (hmode : s.mode = .enc)
    (hport : s.port = []) (halpha : s.hasAlpha = decide (c = 4))
    (hcount : s.cnt.toNat + ps.length = s.npix.toNat)
    (hinput : (List.range' s.cnt.toNat ps.length).map (inputPixel c s.encIn) = ps.map some) :
    steps (ps.length + 1) s = .next (ps.foldl State.encodePixel s).encodeClose := by
  induction ps generalizing s with
  | nil =>
    have hfull : s.cnt = s.npix := BitVec.eq_of_toNat_eq hcount
    exact steps_succ ((step_of_empty_port hport).trans <| (runPse_enc hphase hmode).trans (encodeStep_of_full hfull)) 0
  | cons p more ih =>
    rw [List.length_cons] at hcount
    have hlt : s.cnt < s.npix := by
      rw [BitVec.lt_def]
      omega
    simp only [List.length_cons, List.range'_succ, List.map_cons, List.cons.injEq] at hinput
    obtain ⟨hp, hmore⟩ := hinput
    have hin : s.inPixel = some p := inPixel_of_inputPixel halpha hlt hp
    have hstep : step s = .next (s.encodePixel p) :=
      (step_of_empty_port hport).trans <| (runPse_enc hphase hmode).trans (encodeStep_of_pixel (BitVec.ne_of_lt hlt) hin)
    have hcnt : (s.encodePixel p).cnt.toNat = s.cnt.toNat + 1 := by rw [encodePixel_cnt, cnt_succ s hlt]
    rw [List.length_cons, steps_succ hstep, List.foldl_cons]
    refine ih ?_ ?_ ?_ ?_ ?_ ?_
    · rw [encodePixel_phase, hphase]
    · rw [encodePixel_mode, hmode]
    · rw [encodePixel_port, hport]
    · rw [encodePixel_hasAlpha, halpha]
    · rw [hcnt, encodePixel_npix]
      omega
    · rw [hcnt, encodePixel_encIn, hmore]

/-! ### A whole encode -/

/-- The state in which START_ENC leaves the reset machine (R126, R176). -/
def encodeStart (samples : List Byte) (n : Count) (c : Nat) : State :=
  { State.reset.streamStart .enc n (decide (c = 4)) with encIn := samples, encOut := Memory.empty }

theorem step_startEnc (samples : List Byte) (n : Count) {c : Nat} (hc : c = 3 ∨ c = 4) :
    step { State.reset with port := [.startEnc n c samples] } = .next (encodeStart samples n c) :=
  step_of_command rfl (congrArg some (startEnc_accepted (s := State.reset) nofun n hc samples))

theorem length_of_inputPixels {samples : List Byte} {n : Count} {c : Nat} {ps : List Pixel}
    (h : inputPixels c samples n = some ps) : ps.length = n.toNat := by
  simpa using (congrArg List.length (mapM_eq_some_iff.1 h)).symm

/-- An encode with every pixel supplied codes them all and takes its closing step. -/
theorem wholeEncode_of_pixels {samples : List Byte} {n : Count} {c : Nat} {ps : List Pixel} (hc : c = 3 ∨ c = 4)
    (h : inputPixels c samples n = some ps) :
    wholeEncode samples n c = .next (ps.foldl State.encodePixel (encodeStart samples n c)).encodeClose := by
  have hlength := length_of_inputPixels h
  have hinput := mapM_eq_some_iff.1 h
  rw [List.range_eq_range', ← hlength] at hinput
  have hrun := steps_encode (s := encodeStart samples n c) rfl rfl rfl rfl ((Nat.zero_add _).trans hlength) hinput
  rw [hlength] at hrun
  exact (steps_succ (step_startEnc samples n hc) (n.toNat + 1)).trans hrun

/-- The output of such an encode: the bytes of its chunks, and the end marker. -/
theorem encodedBytes_wholeEncode (samples : List Byte) (n : Count) (c : Nat) (ps : List Pixel) :
    (ps.foldl State.encodePixel (encodeStart samples n c)).encodeClose.encodedBytes =
      some (((encodeStart samples n c).emitted ps).flatMap encode ++ endMarker) := by
  obtain ⟨hout, hbpos⟩ := streams_encodeAll (encodeStart samples n c) ps
  rw [State.encodedBytes, hout, hbpos]
  exact (congrArg _ (Nat.zero_add _)).trans (readBytes_writeBytes _ 0 _)

/-! ### The literal chunk -/

/-- The literal chunk is RGBA for a changed alpha, else DIFF or LUMA where their range tests hold, else RGB (R117 to
R120). -/
theorem literalChunk_cases (hasAlpha : Bool) (prev curr : Pixel) :
    literalChunk hasAlpha prev curr = .rgba curr.r curr.g curr.b curr.a ∨
    ((hasAlpha = true → curr.a = prev.a) ∧
      ((inDiff (sub8 curr.r prev.r) = true ∧ inDiff (sub8 curr.g prev.g) = true ∧ inDiff (sub8 curr.b prev.b) = true ∧
          literalChunk hasAlpha prev curr = .diff (biased 2 (sub8 curr.r prev.r)) (biased 2 (sub8 curr.g prev.g))
            (biased 2 (sub8 curr.b prev.b))) ∨
        (inLumaG (sub8 curr.g prev.g) = true ∧
          inLumaRB (sub8 (sub8 curr.r prev.r) (sub8 curr.g prev.g)) = true ∧
          inLumaRB (sub8 (sub8 curr.b prev.b) (sub8 curr.g prev.g)) = true ∧
          literalChunk hasAlpha prev curr = .luma (biased 6 (sub8 curr.g prev.g))
            (biased 4 (sub8 (sub8 curr.r prev.r) (sub8 curr.g prev.g)))
            (biased 4 (sub8 (sub8 curr.b prev.b) (sub8 curr.g prev.g)))) ∨
        literalChunk hasAlpha prev curr = .rgb curr.r curr.g curr.b)) := by
  unfold literalChunk
  dsimp only
  split
  next => exact .inl rfl
  next halpha =>
    refine .inr ⟨by simpa using halpha, ?_⟩
    split
    next hdiff =>
      simp only [Bool.and_eq_true] at hdiff
      exact .inl ⟨hdiff.1.1, hdiff.1.2, hdiff.2, rfl⟩
    next =>
      split
      next hluma =>
        simp only [Bool.and_eq_true] at hluma
        exact .inr (.inl ⟨hluma.1.1, hluma.1.2, hluma.2, rfl⟩)
      next => exact .inr (.inr rfl)

theorem pixelsOf_literalChunk (hasAlpha : Bool) (prev curr : Pixel) :
    pixelsOf (literalChunk hasAlpha prev curr) = 1 := by
  rcases literalChunk_cases hasAlpha prev curr with e | ⟨-, ⟨-, -, -, e⟩ | ⟨-, -, -, e⟩ | e⟩ <;> rw [e] <;> rfl

theorem writesCache_literalChunk (hasAlpha : Bool) (prev curr : Pixel) :
    writesCache (literalChunk hasAlpha prev curr) = true := by
  rcases literalChunk_cases hasAlpha prev curr with e | ⟨-, ⟨-, -, -, e⟩ | ⟨-, -, -, e⟩ | e⟩ <;> rw [e] <;> rfl

/-- The literal chunk forms the pixel it was chosen for, from the same PREV (R78). At 3 channels this needs the alpha, which
is never coded, to be the same. -/
theorem pixel_literalChunk {d : Datapath} {hasAlpha : Bool} {curr : Pixel}
    (halpha : hasAlpha = false → curr.a = d.prev.a) :
    d.pixel (literalChunk hasAlpha d.prev curr) = curr := by
  obtain ⟨hdiff, hluma⟩ := storedDeltasDecodeBack curr d.prev
  rcases literalChunk_cases hasAlpha d.prev curr with e | ⟨hsame, hchoice⟩
  · rw [e]
    rfl
  · have ha : curr.a = d.prev.a := by cases hasAlpha <;> simp_all
    have hcurr : (⟨curr.r, curr.g, curr.b, d.prev.a⟩ : Pixel) = curr := by rw [← ha]
    rcases hchoice with ⟨hr, hg, hb, e⟩ | ⟨hg, hr, hb, e⟩ | e <;> rw [e]
    · exact (hdiff hr hg hb).trans hcurr
    · exact (hluma hg hr hb).trans hcurr
    · exact hcurr

/-! ### The chunks are well-formed and stand for all the pixels -/

theorem pendingRun_sum (s : State) : (s.pendingRun.map pixelsOf).sum = s.runLen.toNat := by
  unfold State.pendingRun
  split
  next hzero => rw [hzero]; rfl
  next hpos =>
    have hne : s.runLen.toNat ≠ 0 := fun h => hpos (BitVec.eq_of_toNat_eq h)
    simp [pixelsOf, runLength]
    bv_omega

theorem pendingRun_wellFormed {s : State} (h : s.runLen.toNat ≤ 61) : ∀ i ∈ s.pendingRun, i.wellFormed = true := by
  unfold State.pendingRun
  split
  · simp
  next hpos =>
    simp only [List.mem_singleton, forall_eq, Instr.wellFormed, decide_eq_true_eq]
    bv_omega

theorem chunkFor_wellFormed (s : State) (curr : Pixel) : (s.chunkFor curr).wellFormed = true := by
  unfold State.chunkFor
  split
  · rfl
  · exact literalChunk_wellFormed _ _ _

theorem pixelsOf_chunkFor (s : State) (curr : Pixel) : pixelsOf (s.chunkFor curr) = 1 := by
  unfold State.chunkFor
  split
  · rfl
  · exact pixelsOf_literalChunk _ _ _

theorem chunksOf_wellFormed {s : State} (h : s.runLen.toNat ≤ 61) (curr : Pixel) :
    ∀ i ∈ s.chunksOf curr, i.wellFormed = true := by
  unfold State.chunksOf
  split
  · split
    · simp [Instr.wellFormed]
    · simp
  · intro i hi
    rcases List.mem_append.1 hi with hi | hi
    · exact pendingRun_wellFormed h i hi
    · rw [List.mem_singleton.1 hi]
      exact chunkFor_wellFormed s curr

theorem emitted_wellFormed {s : State} (h : s.runLen.toNat ≤ 61) (ps : List Pixel) :
    ∀ i ∈ s.emitted ps, i.wellFormed = true := by
  induction ps generalizing s with
  | nil => exact pendingRun_wellFormed h
  | cons p more ih =>
    intro i hi
    rcases List.mem_append.1 hi with hi | hi
    · exact chunksOf_wellFormed h p i hi
    · exact ih (encodePixel_runLen_le h p) i hi

/-- A run counted or flushed grows by one pixel. -/
theorem countRun_sum {s : State} (h : s.runLen.toNat ≤ 61) :
    ((if s.runLen + 1 = 62 then [Instr.run 61] else []).map pixelsOf).sum + s.countRun.runLen.toNat =
      s.runLen.toNat + 1 := by
  split
  next hfull =>
    rw [countRun_full hfull]
    simp [pixelsOf, runLength]
    bv_omega
  next hgrow =>
    rw [countRun_grow hgrow]
    simp
    omega

/-- One encode step accounts for one pixel more: in its chunks, or in the run it leaves pending. -/
theorem chunksOf_sum {s : State} (h : s.runLen.toNat ≤ 61) (curr : Pixel) :
    ((s.chunksOf curr).map pixelsOf).sum + (s.encodePixel curr).runLen.toNat = s.runLen.toNat + 1 := by
  unfold State.chunksOf State.encodePixel
  split
  · exact (congrArg (_ + BitVec.toNat ·) (firstPixelFixup_runLen _ curr)).trans (countRun_sum h)
  · simp [State.codePixel, pendingRun_sum, pixelsOf_chunkFor]

theorem emitted_sum {s : State} (h : s.runLen.toNat ≤ 61) (ps : List Pixel) :
    ((s.emitted ps).map pixelsOf).sum = s.runLen.toNat + ps.length := by
  induction ps generalizing s with
  | nil => exact pendingRun_sum s
  | cons p more ih =>
    have hstep := chunksOf_sum h p
    rw [State.emitted, List.map_append, List.sum_append, ih (encodePixel_runLen_le h p), List.length_cons]
    omega

end Sys2Proof.Machine
end

section
/-! SUPPORT. Cache agreement: when the chunks an encoder emits stand for its input pixels, read by a decoder whose datapath
agrees with the encoder's, or agrees with it but for the first-pixel fix-up (40_cache_and_delta.md R80). -/

namespace Sys2Proof.Machine

/-! ### Lookups determine a datapath -/

theorem datapath_ext {d d' : Datapath} (hprev : d.prev = d'.prev) (h : ∀ i, d.lookup i = d'.lookup i) : d = d' := by
  obtain ⟨cache, prev⟩ := d
  obtain ⟨cache', prev'⟩ := d'
  have hcache : cache = cache' := Vector.ext fun i hi => h ⟨i, hi⟩
  rw [hcache, show prev = prev' from hprev]

/-! ### The encoder's datapath, step by step -/

section EncoderStep
variable {e : State} {p : Pixel}

theorem datapath_encodePixel_same (hp : p = e.prev) (hstarted : e.cnt ≠ 0) :
    (e.encodePixel p).datapath = e.datapath := by
  subst hp
  have hfixup : e.countRun.firstPixelFixup e.prev = e.countRun := if_neg (by rwa [countRun_cnt])
  simp [State.datapath, State.encodePixel, State.continueRun, hfixup]

/-- The first-pixel fix-up writes the pixel to the encoder's cache (R113). -/
theorem datapath_encodePixel_fixup (hp : p = e.prev) (hfirst : e.cnt = 0) :
    (e.encodePixel p).datapath = e.datapath.store p := by
  subst hp
  have hfixup : e.countRun.firstPixelFixup e.prev = e.countRun.update e.prev := if_pos (by rwa [countRun_cnt])
  simp [State.datapath, State.encodePixel, State.continueRun, hfixup, Datapath.store]

theorem datapath_encodePixel_held (hp : p ≠ e.prev) (hheld : e.lookup (cacheIndex p) = p) :
    (e.encodePixel p).datapath = e.datapath.setPrev p := by
  have hlookup : e.flushRun.lookup (cacheIndex p) = p := (lookup_of_cache (flushRun_cache e) _).trans hheld
  simp [State.datapath, State.encodePixel, State.codePixel, State.selectChunk, hp, hlookup, Datapath.setPrev]

theorem datapath_encodePixel_new (hp : p ≠ e.prev) (hnew : e.lookup (cacheIndex p) ≠ p) :
    (e.encodePixel p).datapath = e.datapath.store p := by
  have hlookup : e.flushRun.lookup (cacheIndex p) ≠ p := by rwa [lookup_of_cache (flushRun_cache e)]
  simp [State.datapath, State.encodePixel, State.codePixel, State.selectChunk, hp, hlookup, Datapath.store]

theorem runLen_encodePixel_differs (hp : p ≠ e.prev) : (e.encodePixel p).runLen = 0 := by
  simp [State.encodePixel, State.codePixel, hp]

end EncoderStep

/-! ### Faithful chunks -/

/-- Read from `d`, the chunks that the encoder in `e` emits for `ps` give its pending run and then `ps`. -/
def Faithful (d : Datapath) (e : State) (ps : List Pixel) : Prop :=
  d.output (e.emitted ps) = List.replicate e.runLen.toNat e.prev ++ ps

theorem output_pendingRun (d : Datapath) (s : State) (more : List Instr) :
    d.output (s.pendingRun ++ more) = List.replicate s.runLen.toNat d.prev ++ d.output more := by
  rw [← pendingRun_sum s]
  unfold State.pendingRun
  split
  · rfl
  · simp [Datapath.output, Datapath.pixel]

section Faithful
variable {d : Datapath} {e : State} {p : Pixel} {ps : List Pixel}

theorem faithful_nil (hprev : d.prev = e.prev) : Faithful d e [] := by
  have hflush := output_pendingRun d e []
  rwa [List.append_nil, hprev] at hflush

/-- A pixel of a run only makes the pending run longer, or completes it. -/
theorem faithful_cons_same (hprev : d.prev = e.prev) (hp : p = e.prev) (hpending : e.runLen.toNat ≤ 61) :
    Faithful d e (p :: ps) ↔ Faithful d (e.encodePixel p) ps := by
  have hsum := countRun_sum hpending
  have hrun : (e.encodePixel p).runLen = e.countRun.runLen := by
    rw [State.encodePixel, if_pos hp]
    exact firstPixelFixup_runLen _ p
  have hlonger : List.replicate e.runLen.toNat p ++ p :: ps = List.replicate (e.runLen.toNat + 1) p ++ ps := by
    rw [List.replicate_succ', List.append_assoc, List.singleton_append]
  rw [Faithful, Faithful, State.emitted, State.chunksOf, if_pos hp, encodePixel_prev, hrun, ← hp, hlonger, ← hsum]
  split
  next hfull => simp [Datapath.output, Datapath.pixel, pixelsOf, runLength, countRun_full hfull, hprev, ← hp]
  next => simp

/-- A differing pixel ends the pending run, and its chunk must form it. -/
theorem faithful_cons_differs (hprev : d.prev = e.prev) (hp : p ≠ e.prev) :
    Faithful d e (p :: ps) ↔
      d.pixel (e.chunkFor p) = p ∧ Faithful (d.after (e.chunkFor p)) (e.encodePixel p) ps := by
  rw [Faithful, Faithful, State.emitted, State.chunksOf, if_neg hp, runLen_encodePixel_differs hp, List.append_assoc,
    output_pendingRun, hprev]
  simp [Datapath.output, pixelsOf_chunkFor]

/-- Where the encoder's slot holds the pixel, the decoder's must too. -/
theorem faithful_cons_held (hprev : d.prev = e.prev) (hp : p ≠ e.prev) (hheld : e.lookup (cacheIndex p) = p) :
    Faithful d e (p :: ps) ↔ d.lookup (cacheIndex p) = p ∧ Faithful (d.setPrev p) (e.encodePixel p) ps := by
  have hchunk : e.chunkFor p = .index (BitVec.ofFin (cacheIndex p)) := if_pos hheld
  rw [faithful_cons_differs hprev hp, hchunk]
  refine and_congr_right fun hpixel => ?_
  rw [Datapath.after, hpixel]
  rfl

/-- Where it does not, both write the pixel to the slot. -/
theorem faithful_cons_new (hprev : d.prev = e.prev) (hp : p ≠ e.prev) (hnew : e.lookup (cacheIndex p) ≠ p)
    (halpha : e.hasAlpha = false → p.a = e.prev.a) :
    Faithful d e (p :: ps) ↔ Faithful (d.store p) (e.encodePixel p) ps := by
  have hchunk : e.chunkFor p = literalChunk e.hasAlpha d.prev p := by rw [hprev]; exact if_neg hnew
  have hpixel : d.pixel (e.chunkFor p) = p := by
    rw [hchunk]
    exact pixel_literalChunk (by rwa [hprev])
  rw [faithful_cons_differs hprev hp, Datapath.after, hpixel, hchunk, writesCache_literalChunk]
  exact and_iff_right rfl

end Faithful

/-! ### The encoder on its way through the pixels -/

/-- The encoder in `e` has the pixels `ps` still to come. -/
structure Coding (e : State) (ps : List Pixel) : Prop where
  /-- R16. -/
  pending : e.runLen.toNat ≤ 61
  /-- CNT does not wrap before the last pixel (R14). -/
  room : e.cnt.toNat + ps.length < 2 ^ 64
  /-- At 3 channels every pixel is opaque (R36). -/
  opaqueAlpha : e.hasAlpha = false → ∀ p ∈ e.prev :: ps, p.a = 255

section Coding
variable {d : Datapath} {e : State} {p : Pixel} {ps : List Pixel}

theorem Coding.cnt_encodePixel (h : Coding e (p :: ps)) : (e.encodePixel p).cnt.toNat = e.cnt.toNat + 1 := by
  have hroom := h.room
  rw [List.length_cons] at hroom
  rw [encodePixel_cnt]
  exact (BitVec.toNat_add e.cnt 1).trans (Nat.mod_eq_of_lt (show e.cnt.toNat + 1 < 2 ^ 64 by omega))

theorem Coding.next (h : Coding e (p :: ps)) : Coding (e.encodePixel p) ps where
  pending := encodePixel_runLen_le h.pending p
  room := by
    have hroom := h.room
    rw [List.length_cons] at hroom
    rw [h.cnt_encodePixel]
    omega
  opaqueAlpha ha := by
    rw [encodePixel_hasAlpha] at ha
    rw [encodePixel_prev]
    exact fun q hq => h.opaqueAlpha ha q (List.mem_cons_of_mem _ hq)

/-- From the second pixel on the fix-up does not fire. -/
theorem Coding.next_started (h : Coding e (p :: ps)) : (e.encodePixel p).cnt ≠ 0 := fun hzero => by
  have hcnt := h.cnt_encodePixel
  rw [hzero] at hcnt
  exact Nat.succ_ne_zero _ hcnt.symm

theorem Coding.alpha_eq (h : Coding e (p :: ps)) (ha : e.hasAlpha = false) : p.a = e.prev.a :=
  (h.opaqueAlpha ha p (by simp)).trans (h.opaqueAlpha ha e.prev (by simp)).symm

/-! ### The datapaths agree -/

/-- A differing pixel keeps two agreeing datapaths in agreement. -/
theorem faithful_cons_of_agree (h : Coding e (p :: ps)) (hp : p ≠ e.prev)
    (hmore : Faithful (e.encodePixel p).datapath (e.encodePixel p) ps) : Faithful e.datapath e (p :: ps) := by
  by_cases hheld : e.lookup (cacheIndex p) = p
  · rw [datapath_encodePixel_held hp hheld] at hmore
    exact (faithful_cons_held rfl hp hheld).2 ⟨hheld, hmore⟩
  · rw [datapath_encodePixel_new hp hheld] at hmore
    exact (faithful_cons_new rfl hp hheld h.alpha_eq).2 hmore

/-- Past the first pixel agreeing datapaths make the chunks faithful. -/
theorem faithful_of_agree (h : Coding e ps) (hstarted : e.cnt ≠ 0) : Faithful e.datapath e ps := by
  induction ps generalizing e with
  | nil => exact faithful_nil rfl
  | cons p more ih =>
    have hmore := ih h.next h.next_started
    by_cases hp : p = e.prev
    · rw [datapath_encodePixel_same hp hstarted] at hmore
      exact (faithful_cons_same rfl hp h.pending).2 hmore
    · exact faithful_cons_of_agree h hp hmore

/-! ### The datapaths differ in the slot of the fix-up -/

/-- The encoder holds the start pixel in its slot and the decoder does not; the rest agrees. No other pixel of the slot has
been coded, or it would have been written to both (R80). -/
structure FixupPending (d : Datapath) (e : State) : Prop where
  previous : d.prev = e.prev
  slots : ∀ i, e.lookup i = if i = cacheIndex startPixel then startPixel else d.lookup i
  missing : d.lookup (cacheIndex startPixel) ≠ startPixel
  noOther : e.prev = startPixel ∨ cacheIndex e.prev ≠ cacheIndex startPixel

theorem FixupPending.same (hd : FixupPending d e) (hp : p = e.prev) (hstarted : e.cnt ≠ 0) :
    FixupPending d (e.encodePixel p) where
  previous := by rw [encodePixel_prev, hp, hd.previous]
  slots i := (congrArg (Datapath.lookup · i) (datapath_encodePixel_same hp hstarted)).trans (hd.slots i)
  missing := hd.missing
  noOther := by
    rw [encodePixel_prev, hp]
    exact hd.noOther

theorem FixupPending.held (hd : FixupPending d e) (hp : p ≠ e.prev) (hheld : e.lookup (cacheIndex p) = p)
    (hother : cacheIndex p ≠ cacheIndex startPixel) : FixupPending (d.setPrev p) (e.encodePixel p) where
  previous := (encodePixel_prev e p).symm
  slots i := (congrArg (Datapath.lookup · i) (datapath_encodePixel_held hp hheld)).trans (hd.slots i)
  missing := hd.missing
  noOther := .inr (by rwa [encodePixel_prev])

theorem FixupPending.new (hd : FixupPending d e) (hp : p ≠ e.prev) (hnew : e.lookup (cacheIndex p) ≠ p)
    (hother : cacheIndex p ≠ cacheIndex startPixel) : FixupPending (d.store p) (e.encodePixel p) where
  previous := (encodePixel_prev e p).symm
  slots i := by
    have hslot := hd.slots i
    refine ((congrArg (Datapath.lookup · i) (datapath_encodePixel_new hp hnew)).trans
      (Datapath.lookup_store _ p i)).trans ?_
    rw [Datapath.lookup_store]
    by_cases hi : i = cacheIndex p
    · rw [if_pos hi, if_pos hi, if_neg (by rwa [hi])]
    · rw [if_neg hi, if_neg hi]
      exact hslot
  missing := by rw [Datapath.lookup_store, if_neg hother.symm]; exact hd.missing
  noOther := .inr (by rwa [encodePixel_prev])

/-- Another pixel of the slot is written to both caches, which then agree. -/
theorem FixupPending.agree (hd : FixupPending d e) (hp : p ≠ e.prev) (hnew : e.lookup (cacheIndex p) ≠ p)
    (hslot : cacheIndex p = cacheIndex startPixel) : d.store p = (e.encodePixel p).datapath := by
  rw [datapath_encodePixel_new hp hnew]
  refine datapath_ext rfl fun i => ?_
  rw [Datapath.lookup_store, Datapath.lookup_store]
  by_cases hi : i = cacheIndex p
  · rw [if_pos hi, if_pos hi]
  · rw [if_neg hi, if_neg hi]
    exact ((hd.slots i).trans (if_neg (by rwa [← hslot]))).symm

/-- While the fix-up is pending the chunks are faithful exactly where the scan of R80 does not find it exposed. -/
theorem faithful_iff_not_exposed (h : Coding e ps) (hstarted : e.cnt ≠ 0) (hd : FixupPending d e) :
    Faithful d e ps ↔ fixupExposed e.prev ps = false := by
  induction ps generalizing d e with
  | nil => exact iff_of_true (faithful_nil hd.previous) rfl
  | cons p more ih =>
    have hmore {d' : Datapath} := ih (d := d') h.next h.next_started
    rw [encodePixel_prev] at hmore
    by_cases hp : p = e.prev
    · rw [faithful_cons_same hd.previous hp h.pending, hmore (hd.same hp hstarted)]
      rcases hd.noOther with hlast | hlast
      · simp [fixupExposed, hp, hlast]
      · have hne : e.prev ≠ startPixel := fun heq => hlast (congrArg cacheIndex heq)
        simp [fixupExposed, hp, hne, hlast]
    have hslot := hd.slots (cacheIndex p)
    by_cases hstart : p = startPixel
    · subst hstart
      rw [if_pos rfl] at hslot
      rw [faithful_cons_held hd.previous hp hslot]
      simp [fixupExposed, Ne.symm hp, hd.missing]
    by_cases hindex : cacheIndex p = cacheIndex startPixel
    · have hnew : e.lookup (cacheIndex p) ≠ p := by
        rw [hslot, if_pos hindex]
        exact Ne.symm hstart
      rw [faithful_cons_new hd.previous hp hnew h.alpha_eq, hd.agree hp hnew hindex]
      exact iff_of_true (faithful_of_agree h.next h.next_started) (by simp [fixupExposed, hstart, hindex])
    have hscan : fixupExposed e.prev (p :: more) = fixupExposed p more := by simp [fixupExposed, hstart, hindex]
    rw [hscan]
    by_cases hheld : e.lookup (cacheIndex p) = p
    · rw [faithful_cons_held hd.previous hp hheld, hmore (hd.held hp hheld hindex)]
      rw [if_neg hindex] at hslot
      exact and_iff_right (hslot.symm.trans hheld)
    · rw [faithful_cons_new hd.previous hp hheld h.alpha_eq, hmore (hd.new hp hheld hindex)]

end Coding

/-! ### From the first pixel on -/

section FirstPixel
variable {samples : List Byte} {n : Count} {c : Nat} {pixels : List Pixel}

/-- At 3 channels every input pixel is opaque (R36). -/
theorem inputPixel_alpha {i : Nat} {p : Pixel} (h : inputPixel 3 samples i = some p) : p.a = 255 := by
  unfold inputPixel at h
  split at h
  next => cases h; rfl
  next heq _ => exact absurd heq (by decide)
  · exact nomatch h

theorem coding_encodeStart (hc : c = 3 ∨ c = 4) (h : inputPixels c samples n = some pixels) :
    Coding (encodeStart samples n c) pixels where
  pending := Nat.zero_le 61
  room := by
    rw [length_of_inputPixels h]
    exact (Nat.zero_add _).trans_lt n.isLt
  opaqueAlpha ha := by
    have h3 : c = 3 := hc.resolve_right (of_decide_eq_false ha)
    subst h3
    intro p hp
    rcases List.mem_cons.1 hp with rfl | hp
    · rfl
    · have hsome : some p ∈ (List.range n.toNat).map (inputPixel 3 samples) := by
        rw [mapM_eq_some_iff.1 h]
        exact List.mem_map_of_mem hp
      obtain ⟨i, -, hi⟩ := List.mem_map.1 hsome
      exact inputPixel_alpha hi

/-- The whole of R80's criterion: read from the start of a stream, an encode's chunks give its input pixels exactly where
the criterion holds. -/
theorem faithful_iff_roundTrips (h : Coding (encodeStart samples n c) pixels) :
    Faithful (encodeStart samples n c).datapath (encodeStart samples n c) pixels ↔ roundTrips pixels = true := by
  cases pixels with
  | nil => exact iff_of_true (faithful_nil rfl) rfl
  | cons p more =>
    have hstarted := h.next_started
    by_cases hp : p = (encodeStart samples n c).prev
    · have hfixup : FixupPending (encodeStart samples n c).datapath ((encodeStart samples n c).encodePixel p) := {
        previous := by rw [encodePixel_prev, hp]; rfl
        slots := fun i => by
          refine ((congrArg (Datapath.lookup · i) (datapath_encodePixel_fixup hp rfl)).trans
            (Datapath.lookup_store _ p i)).trans ?_
          rw [hp]
          rfl
        missing := by
          have hzero := lookup_zeroed (encodeStart samples n c) rfl (cacheIndex startPixel)
          exact fun heq => absurd (hzero.symm.trans heq) (by decide)
        noOther := .inl (by rw [encodePixel_prev, hp]; rfl) }
      rw [faithful_cons_same rfl hp h.pending, faithful_iff_not_exposed h.next hstarted hfixup, encodePixel_prev]
      simp [roundTrips, show p = startPixel from hp]
    · exact iff_of_true (faithful_cons_of_agree h hp (faithful_of_agree h.next hstarted))
        (by simp [roundTrips, show p ≠ startPixel from hp])

end FirstPixel

end Sys2Proof.Machine
end

section
/-! The statements about round-trip (40_cache_and_delta.md R80, 90_conflicts.md C1). -/

namespace Sys2Proof.Machine

/-- Encode of an image, then decode of its stream: both finish, and the decoded pixels are the input exactly where the
criterion of R80 holds. -/
theorem decode_of_encode {samples : List Byte} {n : Count} {c : Nat} {pixels : List Pixel} (hc : c = 3 ∨ c = 4)
    (h : inputPixels c samples n = some pixels) :
    ∃ t bytes d out, wholeEncode samples n c = .next t ∧ t.encodedBytes = some bytes ∧
      wholeDecode bytes n = .next d ∧ d.decodedPixels = some out ∧ (out = pixels ↔ roundTrips pixels = true) := by
  have hcoding := coding_encodeStart hc h
  have hcount := emitted_sum hcoding.pending pixels
  rw [length_of_inputPixels h] at hcount
  exact ⟨_, _, _, _, wholeEncode_of_pixels hc h, encodedBytes_wholeEncode samples n c pixels,
    wholeDecode_of_chunks (emitted_wellFormed hcoding.pending pixels) (hcount.trans (Nat.zero_add _)) endMarker,
    decodedPixels_wholeDecode (hcount.trans (Nat.zero_add _)) _, faithful_iff_roundTrips hcoding⟩

/-- Settles O51: under the criterion the decoder's pixels are the input. -/
theorem roundTripUnderCriterion : Obligations.RoundTripUnderCriterion := by
  intro samples n c pixels hc h htrips
  obtain ⟨t, bytes, d, out, henc, hbytes, hdec, hout, hiff⟩ := decode_of_encode hc h
  exact ⟨t, bytes, d, henc, hbytes, hdec, (hiff.2 htrips) ▸ hout⟩

/-- Settles O52: where the criterion fails the decoder's pixels are not the input. -/
theorem roundTripFailsOtherwise : Obligations.RoundTripFailsOtherwise := by
  intro samples n c pixels hc h hfails
  obtain ⟨t, bytes, d, out, henc, hbytes, hdec, hout, hiff⟩ := decode_of_encode hc h
  exact ⟨t, bytes, d, out, henc, hbytes, hdec, hout, fun heq => absurd (hiff.1 heq) (by simp [hfails])⟩

end Sys2Proof.Machine
end

section
/-! SUPPORT. Rules about the decode step: when it runs its chunk and when it closes, and what each operator does as one
`State.afterChunk` or one cut (41_decode.md R85 to R99). -/

namespace Sys2Proof.Machine

/-! ### Which form the decode step takes -/

/-- While pixels are wanted and a tag is there, the decode step runs the chunk at BPOS (R85). -/
theorem decodeStep_of_open {s : State} (hwanted : s.cnt ≠ s.npix) (htag : s.bpos < s.decIn.length) :
    s.decodeStep = exec s.fetchChunk s := by
  have havail : s.avail 1 = true := (avail_iff s 1).2 htag
  exact if_neg (by simp [hwanted, havail])

/-- The decoder reads a chunk only where a tag is there. -/
theorem bpos_lt_of_decode {s : State} {i : Instr} {rest : List Byte}
    (h : decode (s.decIn.drop s.bpos) = .ok (i, rest)) : s.bpos < s.decIn.length := by
  by_contra hend
  rw [List.drop_eq_nil_of_le (Nat.not_lt.1 hend)] at h
  exact nomatch h

/-- While pixels are wanted, the decode step runs the chunk the decoder reads at BPOS (R85). -/
theorem decodeStep_of_decode {s : State} {i : Instr} {rest : List Byte} (hwanted : s.cnt ≠ s.npix)
    (h : decode (s.decIn.drop s.bpos) = .ok (i, rest)) : s.decodeStep = exec i s := by
  rw [decodeStep_of_open hwanted (bpos_lt_of_decode h), fetchChunk_of_decode h]

/-- With all pixels output or the source exhausted the decode step closes (R86, R99). -/
theorem decodeStep_of_due {s : State} (h : s.cnt = s.npix ∨ s.decIn.length ≤ s.bpos) :
    s.decodeStep = .next s.decodeClose := by
  rcases h with hfull | hend
  · exact decodeStep_of_full hfull
  · have havail : s.avail 1 = false := decide_eq_false (Nat.not_le_of_lt (Nat.lt_succ_of_le hend))
    exact if_pos (by simp [havail])

/-- With no command at the boundary, in BODY of a decode, the step is the decode step. -/
theorem step_of_decoding {s : State} (hquiet : NoCommand s) (hphase : s.phase = .body) (hmode : s.mode = .dec) :
    step s = ({ s with port := s.port.tail } : State).decodeStep :=
  (step_of_noCommand hquiet).trans (runPse_dec (s := { s with port := s.port.tail }) hphase hmode)

/-- With the port empty too, it is the decode step of the state itself. -/
theorem step_eq_decodeStep {s : State} (hport : s.port = []) (hphase : s.phase = .body) (hmode : s.mode = .dec) :
    step s = s.decodeStep := (step_of_empty_port hport).trans (runPse_dec hphase hmode)

/-- A decode step closes the operation or leaves PHASE as it is. -/
theorem decodeStep_phase {s t : State} (h : s.decodeStep = .next t) : t.phase = .done ∨ t.phase = s.phase := by
  rcases decodeStep_outcomes h with ⟨-, rfl⟩ | ⟨-, -, rfl⟩ | ⟨cached, n, p, k, -, -, -, rfl⟩
  · exact .inl rfl
  · exact .inr rfl
  · exact .inr (by rw [afterChunk_rest])

/-! ### A whole chunk -/

/-- A chunk with trailing bytes, all of them there, outputs its pixel once and caches it (R95). -/
theorem trailingCommit_afterChunk {s : State} {n : Nat} (hbytes : s.bpos + (n + 1) ≤ s.decIn.length)
    (hlt : s.cnt < s.npix) (p : Pixel) : s.trailingCommit n p = .next (s.afterChunk true (n + 1) p 1) :=
  (trailingCommit_whole s n p hbytes).trans (commitCached_next (s.advance (n + 1)) p hlt)

/-- RUN outputs PREV as often as its length and NPIX allow (R93). -/
theorem execRun_next {n : BitVec 6} (hn : n.toNat ≤ 61) {s : State} (hlt : s.cnt < s.npix) :
    execRun n s = .next ((s.advance 1).outPixels s.prev (min (runLength n) (s.npix.toNat - s.cnt.toNat))) := by
  rw [execRun, if_neg (Nat.not_lt.2 hn), if_pos hlt]

/-- Below NPIX a whole chunk outputs its pixel as often as it asks for, but never past NPIX (R93, R95). -/
theorem exec_filling {i : Instr} {s : State} (hwf : i.wellFormed = true) (hbytes : s.bpos + i.length ≤ s.decIn.length)
    (hlt : s.cnt < s.npix) :
    exec i s = .next (s.afterChunk (writesCache i) i.length (s.datapath.pixel i)
      (min (pixelsOf i) (s.npix.toNat - s.cnt.toNat))) := by
  rw [BitVec.lt_def] at hlt
  by_cases hroom : s.cnt.toNat + pixelsOf i ≤ s.npix.toNat
  · rw [Nat.min_eq_left (by omega)]
    exact exec_whole hwf hbytes hroom
  · cases i with
    | run n =>
      rw [exec, execRun_next (of_decide_eq_true hwf) hlt]
      exact congrArg _ (setPrev_self _ _ (outPixels_prev _ _ _)).symm
    | rgb | rgba | index | diff | luma => exact absurd hlt hroom

/-- One pixel output by a chunk of `n` bytes, in the terms of claims (R95). -/
theorem commits_afterChunk {s : State} (hlt : s.cnt < s.npix) (cached : Bool) (n : Nat) (p : Pixel) :
    Commits s (s.afterChunk cached n p 1) p n := by
  cases cached
  · exact commits_outPixel s s.cache p n hlt
  · exact commits_outPixel s (s.update p).cache p n hlt

theorem cachedIn_afterChunk (s : State) (n : Nat) (p : Pixel) (k : Nat) : CachedIn s (s.afterChunk true n p k) p := by
  intro i
  rw [← lookup_update]
  exact lookup_of_cache (by simp [State.afterChunk]) i

/-! ### A cut chunk -/

/-- A chunk of which trailing bytes are missing raises TruncatedStream, and nothing else happens (R94). -/
theorem exec_cut {i : Instr} {s : State} (htag : s.bpos < s.decIn.length) (hcut : s.decIn.length < s.bpos + i.length) :
    exec i s = .next (s.raise .truncatedStream) := by
  cases i with
  | rgb r g b => exact trailingCommit_cut s 3 _ hcut
  | rgba r g b a => exact trailingCommit_cut s 4 _ hcut
  | luma fgl frg fbg => exact trailingCommit_cut s 1 _ hcut
  | index | diff | run => exact absurd hcut (Nat.not_lt.2 htag)

/-- The chunk at BPOS by the bytes from its tag on. -/
theorem fetchChunk_of_drop {s : State} {t : Byte} {more : List Byte} (h : s.decIn.drop s.bpos = t :: more) :
    s.fetchChunk = chunkOf t (more.getD 0 0) (more.getD 1 0) (more.getD 2 0) (more.getD 3 0) := by
  have hbyte (k : Nat) : s.fetchByte k = (t :: more).getD k 0 := by
    rw [← h]
    simp [State.fetchByte, List.getD_eq_getElem?_getD, List.getElem?_drop]
  simp [State.fetchChunk, hbyte]

/-- Where a tag is there but the decoder fails, the source ends inside the chunk at BPOS (R61, R94). -/
theorem fetchChunk_cut {s : State} {e : DecodeError} (htag : s.bpos < s.decIn.length)
    (h : decode (s.decIn.drop s.bpos) = .error e) : s.decIn.length < s.bpos + s.fetchChunk.length := by
  have hdrop := List.drop_eq_getElem_cons htag
  have hlength := congrArg List.length hdrop
  rw [List.length_drop, List.length_cons] at hlength
  by_contra hwhole
  rw [hdrop, decode_whole (fetchChunk_of_drop hdrop).symm (by omega)] at h
  exact nomatch h

/-- While pixels are wanted, the decode step on a cut chunk raises TruncatedStream, and nothing else happens (R94). -/
theorem decodeStep_of_cut {s : State} {e : DecodeError} (hwanted : s.cnt ≠ s.npix) (htag : s.bpos < s.decIn.length)
    (h : decode (s.decIn.drop s.bpos) = .error e) : s.decodeStep = .next (s.raise .truncatedStream) :=
  (decodeStep_of_open hwanted htag).trans (exec_cut htag (fetchChunk_cut htag h))

end Sys2Proof.Machine
end

section
/-! Every decode finishes: while it is in BODY each step moves BPOS on within the source (41_decode.md R87, R97). -/

namespace Sys2Proof.Machine

/-- In a state a run can be in, a decode step answers, keeps the source and NPIX, and closes or moves BPOS on. -/
theorem decodeStep_progress {s : State} (h : PseInv s) (hphase : s.phase = .body) (hmode : s.mode = .dec) :
    ∃ t, s.decodeStep = .next t ∧ PseInv t ∧ t.mode = .dec ∧ t.port = s.port ∧ t.decIn = s.decIn ∧ t.npix = s.npix ∧
      (t.phase = .done ∨ t.phase = .body ∧ s.bpos < t.bpos) := by
  obtain ⟨t, ht⟩ := decodeStep_answers h.count
  have hrest := decodeStep_rest ht
  obtain ⟨-, -, hmoves⟩ := decodeStep_grows (h.cursor hmode) ht
  have hphases := (decodeStep_phase ht).imp_right fun hkept =>
    have hbody := hkept.trans hphase
    And.intro hbody (hmoves hbody)
  exact ⟨t, ht, h.decodeStep hmode hphase ht, by rw [hrest]; exact hmode, by rw [hrest], by rw [hrest], by rw [hrest],
    hphases⟩

/-- With no more commands, a decode is DONE after one step more than there are bytes left (R87). -/
theorem steps_decode_done {s : State} (h : PseInv s) (hphase : s.phase = .body) (hmode : s.mode = .dec)
    (hport : s.port = []) {k : Nat} (hk : s.decIn.length < s.bpos + k) :
    ∃ t, steps k s = .next t ∧ PseInv t ∧ t.phase = .done ∧ t.mode = .dec ∧ t.decIn = s.decIn ∧ t.npix = s.npix := by
  induction k generalizing s with
  | zero => exact absurd (h.cursor hmode) (Nat.not_le_of_lt hk)
  | succ k ih =>
    obtain ⟨u, hu, hinv, humode, huport, hsource, hnpix, hforms⟩ := decodeStep_progress h hphase hmode
    have hstep : step s = .next u := (step_eq_decodeStep hport hphase hmode).trans hu
    rw [hport] at huport
    rw [steps_succ hstep]
    rcases hforms with hdone | ⟨hbody, hmoved⟩
    · exact ⟨u, steps_still (by simp [hdone]) huport k, hinv, hdone, humode, hsource, hnpix⟩
    · obtain ⟨t, ht, htinv, htdone, htmode, htsource, htnpix⟩ :=
        ih hinv hbody humode huport (by rw [hsource]; omega)
      exact ⟨t, ht, htinv, htdone, htmode, htsource.trans hsource, htnpix.trans hnpix⟩

theorem pseInv_decodeStart (bytes : List Byte) (n : Count) : PseInv (decodeStart bytes n) := by
  have hstart := PseInv.startDec resetMeetsPseInv n bytes
  rwa [startDec_accepted (s := State.reset) nofun] at hstart

/-! ### The pixels in DEC_OUT -/

/-- A stretch of written bytes reads back as some bytes, one for each address. -/
theorem readBytes_of_isSome {m : Memory} {a n : Nat} (h : ∀ b, a ≤ b → b < a + n → (m.read b).isSome = true) :
    ∃ bs, m.readBytes a n = some bs ∧ bs.length = n := by
  induction n generalizing a with
  | zero => exact ⟨[], rfl, rfl⟩
  | succ n ih =>
    obtain ⟨v, hv⟩ := Option.isSome_iff_exists.1 (h a (Nat.le_refl a) (by omega))
    obtain ⟨bs, hbs, hlength⟩ := ih (a := a + 1) fun b hlow hhigh => h b (by omega) (by omega)
    exact ⟨v :: bs, by simp [Memory.readBytes, hv, hbs], by simp [hlength]⟩

/-- Where the bytes of pixels 0 .. CNT − 1 are written, a pixel is there for each of them (R34). -/
theorem decodedPixels_of_filled {s : State} (h : s.decOut.FilledTo (4 * s.cnt.toNat)) :
    ∃ out, s.decodedPixels = some out ∧ out.length = s.cnt.toNat := by
  have hpixels : ∀ o ∈ (List.range s.cnt.toNat).map s.decOut.readPixel, o ∈ Set.range some := by
    intro o ho
    obtain ⟨j, hj, rfl⟩ := List.mem_map.1 ho
    have hj := List.mem_range.1 hj
    obtain ⟨bs, hbs, hlength⟩ := readBytes_of_isSome (m := s.decOut) (a := 4 * j) (n := 4) fun b _ hb =>
      (h.2 b).2 (by omega)
    obtain ⟨r, g, b, a, rfl⟩ := List.length_eq_four.1 hlength
    exact ⟨⟨r, g, b, a⟩, by rw [Memory.readPixel, hbs]⟩
  obtain ⟨out, hout⟩ := (Set.range_list_map some).ge hpixels
  exact ⟨out, mapM_eq_some_iff.2 hout.symm, by simpa using congrArg List.length hout⟩

/-- Settles O47: every step of the decode moves on or closes, and the invariant says what a closed decode holds. -/
theorem everyDecodeFinishes : Obligations.EveryDecodeFinishes := by
  intro bytes n
  obtain ⟨t, hrun, hinv, hdone, hmode, hsource, hnpix⟩ :=
    steps_decode_done (pseInv_decodeStart bytes n) rfl rfl rfl (k := bytes.length + 1)
      ((Nat.lt_succ_self bytes.length).trans_eq (Nat.zero_add _).symm)
  obtain ⟨out, hout, hlength⟩ := decodedPixels_of_filled ⟨hinv.canonical.1, hinv.decoded hmode (by simp [hdone])⟩
  obtain ⟨hunder, hmarker⟩ := hinv.underfilled hdone hmode
  have hnpix : t.npix = n := hnpix
  have hcursor : t.bpos ≤ bytes.length := (hinv.cursor hmode).trans_eq (congrArg List.length hsource)
  refine ⟨t, out, (steps_succ (step_startDec bytes n) _).trans hrun, hdone, hout, hlength, ?_, hcursor, ?_, hmarker, ?_⟩
  · rw [hlength, ← hnpix]
    exact hinv.count
  · rw [hunder, hlength, ← hnpix]
    exact BitVec.lt_def
  · intro htrunc
    obtain ⟨-, -, -, hmissing⟩ := hinv.truncated htrunc
    exact ⟨hunder.2 hmissing, hmarker (hunder.2 hmissing)⟩

end Sys2Proof.Machine
end

section
/-! The decode of a complete stream: the chunks of its body, the last one cut at NPIX if need be, and the closing step
at the end marker (41_decode.md R93, R97, R99). -/

namespace Sys2Proof.Machine

/-- The decode has output all its pixels and stands at byte `b`: from `s` to `t` the cache, PREV and DEC_OUT may differ,
and nothing else. -/
def Fills (s t : State) (b : Nat) : Prop :=
  t = { s with cache := t.cache, prev := t.prev, bpos := b, cnt := s.npix, decOut := t.decOut }

/-- The chunk that has at least as many pixels as are wanted outputs just those. -/
theorem decodeStep_fills {i : Instr} {s : State} {rest : List Byte} (hbytes : s.decIn.drop s.bpos = encode i ++ rest)
    (hwf : i.wellFormed = true) (hlt : s.cnt < s.npix) (henough : s.npix.toNat ≤ s.cnt.toNat + pixelsOf i) :
    ∃ t, s.decodeStep = .next t ∧ Fills s t (s.bpos + (encode i).length) := by
  have hdecode := (congrArg decode hbytes).trans (decodeOfEncodedChunk i rest hwf)
  have hnonempty : encode i ≠ [] := List.ne_nil_of_length_pos ((length_pos i).trans_eq (length_encode i).symm)
  have hsupplied := length_of_drop_eq hbytes hnonempty
  rw [length_encode] at hsupplied
  have hstep := decodeStep_of_decode (BitVec.ne_of_lt hlt) hdecode
  rw [exec_filling hwf hsupplied hlt, Nat.min_eq_right (by omega)] at hstep
  rw [BitVec.lt_def] at hlt
  have hfull : s.cnt + BitVec.ofNat 64 (s.npix.toNat - s.cnt.toNat) = s.npix := by
    apply BitVec.eq_of_toNat_eq
    have := s.npix.isLt
    rw [BitVec.toNat_add, BitVec.toNat_ofNat]
    omega
  refine ⟨_, hstep, ?_⟩
  rw [Fills, afterChunk_rest, hfull, length_encode]

/-- The chunks of a body of which the last is needed for the last pixel: the decoder runs them all, whatever follows. -/
theorem steps_body {s : State} {body : List Instr} {rest : List Byte} (hphase : s.phase = .body) (hmode : s.mode = .dec)
    (hport : s.port = []) (hbytes : s.decIn.drop s.bpos = body.flatMap encode ++ rest)
    (hwf : ∀ i ∈ body, i.wellFormed = true) (henough : s.npix.toNat ≤ s.cnt.toNat + (body.map pixelsOf).sum)
    (hneeded : s.cnt.toNat + (body.dropLast.map pixelsOf).sum < s.npix.toNat ∨ (body = [] ∧ s.cnt = s.npix)) :
    ∃ t, (∀ k, steps (body.length + k) s = steps k t) ∧ Fills s t (s.bpos + (body.flatMap encode).length) := by
  rcases List.eq_nil_or_concat' body with rfl | ⟨pre, last, rfl⟩
  case inl =>
    obtain ⟨-, hfull⟩ := hneeded.resolve_left (Nat.not_lt.2 henough)
    refine ⟨s, fun k => congrArg (steps · s) (Nat.zero_add k), ?_⟩
    exact congrArg (fun c => ({ s with cnt := c } : State)) hfull
  case inr =>
    have hwanted := hneeded.resolve_right (by simp)
    rw [List.dropLast_concat] at hwanted
    rw [List.map_append, List.sum_append, List.map_singleton, List.sum_singleton] at henough
    rw [List.flatMap_append, List.flatMap_singleton, List.append_assoc] at hbytes
    have hpre := fun k => steps_chunks hphase hmode hport hbytes (fun i hi => hwf i (List.mem_append_left _ hi))
      hwanted.le k
    have hrest := runChunks_rest s pre
    generalize pre.foldl State.runChunk s = u at hpre hrest
    have hcnt : u.cnt.toNat = s.cnt.toNat + (pre.map pixelsOf).sum := by
      rw [hrest, BitVec.toNat_add, BitVec.toNat_ofNat]
      have := s.npix.isLt
      omega
    have hubytes : u.decIn.drop u.bpos = encode last ++ rest := by
      rw [hrest]
      dsimp only
      rw [← List.drop_drop, hbytes, List.drop_left]
    have hnpix : u.npix = s.npix := by rw [hrest]
    obtain ⟨t, ht, hfills⟩ := decodeStep_fills hubytes (hwf last (by simp)) (BitVec.lt_def.2 (by rw [hnpix]; omega))
      (by rw [hnpix]; omega)
    have hstep : step u = .next t :=
      Eq.trans (step_eq_decodeStep (by rw [hrest]; exact hport) (by rw [hrest]; exact hphase)
        (by rw [hrest]; exact hmode)) ht
    refine ⟨t, fun k => ?_, ?_⟩
    · rw [List.length_append, List.length_singleton, Nat.add_assoc, hpre, Nat.add_comm 1, steps_succ hstep]
    · rw [Fills] at hfills ⊢
      rw [hfills, hrest, List.flatMap_append, List.flatMap_singleton, List.length_append, Nat.add_assoc]

/-- The closing step at the end marker, with all pixels output, raises nothing and moves past the marker (R99). -/
theorem decodeClose_of_marker {s : State} {rest : List Byte} (hfull : s.cnt = s.npix)
    (hmarker : s.decIn.drop s.bpos = endMarker ++ rest) :
    s.decodeClose = { s with phase := .done, bpos := s.bpos + 8 } := by
  have hsupplied := length_of_drop_eq hmarker (front := endMarker) nofun
  have hfound : s.markerFound = true :=
    decide_eq_true ⟨hsupplied, by rw [hmarker]; exact List.take_left' rfl⟩
  rw [decodeClose_record, hfound, hfull]
  simp [BitVec.lt_irrefl]

/-- With all pixels output the decoder takes its closing step, and any steps after it change nothing. -/
theorem steps_close {s : State} (hport : s.port = []) (hphase : s.phase = .body) (hmode : s.mode = .dec)
    (hfull : s.cnt = s.npix) (k : Nat) : steps (k + 1) s = .next s.decodeClose := by
  rw [steps_succ ((step_eq_decodeStep hport hphase hmode).trans (decodeStep_of_full hfull))]
  exact steps_still (by rw [decodeClose_record]; nofun) (by rw [decodeClose_record]; exact hport) k

/-- Settles O48: the decoder runs the body and closes at the marker; `steps_close` takes the steps left over. -/
theorem completeStreamDecodesClean : Obligations.CompleteStreamDecodesClean := by
  intro body rest n hwf henough hneeded
  rw [List.append_assoc]
  generalize hbytes : body.flatMap encode ++ (endMarker ++ rest) = bytes
  have hlength : body.length ≤ bytes.length := by
    rw [← hbytes, List.length_append]
    exact Nat.le_add_right_of_le (length_le_flatMap_encode body)
  obtain ⟨spare, hspare⟩ := Nat.exists_eq_add_of_le hlength
  obtain ⟨t, hsteps, hfills⟩ := steps_body (s := decodeStart bytes n) rfl rfl rfl hbytes.symm hwf
    (henough.trans_eq (Nat.zero_add _).symm)
    (hneeded.imp (Nat.zero_add _).trans_lt (And.imp_right Eq.symm))
  have hmarker : t.decIn.drop t.bpos = endMarker ++ rest := by
    rw [hfills]
    exact (congrArg₂ List.drop (Nat.zero_add _) hbytes.symm).trans List.drop_left
  have hclose := decodeClose_of_marker (by rw [hfills]) hmarker
  have hrun : wholeDecode bytes n = .next t.decodeClose := calc
    wholeDecode bytes n = steps (bytes.length + 1) (decodeStart bytes n) := steps_succ (step_startDec bytes n) _
    _ = steps (spare + 1) t := by rw [hspare, Nat.add_assoc, hsteps]
    _ = .next t.decodeClose :=
      steps_close (by rw [hfills]; rfl) (by rw [hfills]; rfl) (by rw [hfills]; rfl) (by rw [hfills]) spare
  refine ⟨_, hrun, by rw [hclose], by rw [hclose, hfills]; rfl, by rw [hclose, hfills]; rfl, ?_⟩
  rw [hclose, hfills]
  exact congrArg (· + 8) (Nat.zero_add _)

end Sys2Proof.Machine
end

section
/-! The statements about the six operators and about one decode step (41_decode.md R85 to R99). -/

namespace Sys2Proof.Machine

/-- Settles O12. -/
theorem rgbCommitsSamples : Obligations.RgbCommitsSamples := by
  intro r g b s
  refine ⟨fun hbytes hlt => ⟨_, trailingCommit_afterChunk (n := 3) hbytes hlt _, ?_, ?_⟩, fun hcut => ?_⟩
  · exact commits_afterChunk hlt true 4 _
  · exact cachedIn_afterChunk s 4 _ 1
  · exact trailingCommit_cut s 3 _ hcut

/-- Settles O13. -/
theorem rgbaCommitsSamples : Obligations.RgbaCommitsSamples := by
  intro r g b a s
  refine ⟨fun hbytes hlt => ⟨_, trailingCommit_afterChunk (n := 4) hbytes hlt _, ?_, ?_⟩, fun hcut => ?_⟩
  · exact commits_afterChunk hlt true 5 _
  · exact cachedIn_afterChunk s 5 _ 1
  · exact trailingCommit_cut s 4 _ hcut

/-- Settles O14: a commit without a cache write. -/
theorem indexCommitsSlot : Obligations.IndexCommitsSlot :=
  fun idx s hlt => ⟨_, if_pos hlt, commits_afterChunk hlt false 1 (s.lookup idx.toFin), rfl⟩

/-- Settles O15: the biased fields are the fields less 2, and `add8` is addition modulo 256. -/
theorem diffCommitsDeltas : Obligations.DiffCommitsDeltas := by
  intro fr fg fb s hlt
  exact ⟨_, diffPixel s.prev fr fg fb, commitCached_next (s.advance 1) _ hlt, commits_afterChunk hlt true 1 _,
    cachedIn_afterChunk s 1 _ 1, toNat_add8 _ _, toNat_add8 _ _, toNat_add8 _ _, rfl⟩

/-- Settles O16: the biased fields are the fields less 32 and less 8, and `add8` is addition modulo 256. -/
theorem lumaCommitsDeltas : Obligations.LumaCommitsDeltas := by
  intro fgl frg fbg s
  refine ⟨fun hbytes hlt => ?_, fun hcut => trailingCommit_cut s 1 _ hcut⟩
  exact ⟨_, lumaPixel s.prev fgl frg fbg, trailingCommit_afterChunk (n := 1) hbytes hlt _,
    commits_afterChunk hlt true 2 _, cachedIn_afterChunk s 2 _ 1, toNat_add8 _ _, toNat_add8 _ _, toNat_add8 _ _, rfl⟩

/-- Settles O17, from the laws of `k` pixels written one after another. -/
theorem runRepeatsPrev : Obligations.RunRepeatsPrev := by
  intro n s hn hlt
  have hnext := execRun_next hn hlt
  rw [BitVec.lt_def] at hlt
  generalize hk : min (runLength n) (s.npix.toNat - s.cnt.toNat) = k at hnext
  have hroom : s.cnt.toNat + k ≤ s.npix.toNat := by omega
  have hpos : 1 ≤ k := by
    rw [← hk, runLength]
    omega
  refine ⟨_, k, hnext, hk.symm, hpos, outPixels_cnt_toNat (s.advance 1) s.prev k hroom, outPixels_bpos _ _ _,
    outPixels_stored (s.advance 1) s.prev k hroom, fun a ha => ?_, ?_⟩
  · rw [outPixels_read (s.advance 1) s.prev k hroom, if_neg (by simp only [advance_cnt]; omega)]
    rfl
  · rw [outPixels_rest]
    rfl

/-- Settles O19: the step is the closing step, of which `decodeClose_eq` says every effect. -/
theorem closingStepReports : Obligations.ClosingStepReports := by
  intro s found hquiet hphase hmode hdue hfound
  rw [step_of_decoding hquiet hphase hmode, decodeStep_of_due (s := { s with port := s.port.tail }) hdue,
    decodeClose_eq { s with port := s.port.tail } found hfound]

/-- Settles O18: the chunk at BPOS is cut, and after it no marker can be found. -/
theorem stepOnCutChunkTruncates : Obligations.StepOnCutChunkTruncates := by
  rintro s cut e hquiet hphase hmode hlt htag herror rfl
  constructor
  · rw [step_of_decoding hquiet hphase hmode]
    exact decodeStep_of_cut (s := { s with port := s.port.tail }) (BitVec.ne_of_lt hlt) htag herror
  · intro hquiet'
    rw [closingStepReports _ false hquiet' hphase hmode (.inr (Nat.le_refl _)) (by simp)]
    simp [hlt]

/-- Settles O11. -/
theorem stepRunsDecodedChunk : Obligations.StepRunsDecodedChunk := by
  intro s i rest hphase hmode hwanted hdecode
  constructor
  · intro hport
    exact (step_eq_decodeStep hport hphase hmode).trans (decodeStep_of_decode hwanted hdecode)
  · intro more hport
    rw [step_of_quiet_port hport, runPse_dec (s := { s with port := more }) hphase hmode]
    exact decodeStep_of_decode (s := { s with port := more }) hwanted hdecode

end Sys2Proof.Machine
end

section
/-! SUPPORT. How many pixels and bytes a list of chunks has, what a whole encode leaves, and the pixels a host supplies
(42_encode.md R126, 20_memory.md R36). -/

namespace Sys2Proof.Machine

/-! ### The pixels and the bytes of chunks -/

/-- RUN packs the most pixels in a byte, 62 (R59). -/
theorem pixelsOf_le {i : Instr} (hwf : i.wellFormed = true) : pixelsOf i ≤ 62 * (encode i).length := by
  cases i with
  | run n =>
    have hn : n.toNat ≤ 61 := of_decide_eq_true hwf
    simp only [pixelsOf, runLength, encode, List.length_singleton]
    omega
  | rgb | rgba | index | diff | luma => simp [pixelsOf, encode]

/-- RGBA spends the most bytes on a pixel, 5 (R54). -/
theorem length_encode_le (i : Instr) : (encode i).length ≤ 5 * pixelsOf i := by
  cases i with
  | run n =>
    simp only [pixelsOf, runLength, encode, List.length_singleton]
    omega
  | rgb | rgba | index | diff | luma => simp [pixelsOf, encode]

theorem pixels_le_bytes {cs : List Instr} (hwf : ∀ i ∈ cs, i.wellFormed = true) :
    (cs.map pixelsOf).sum ≤ 62 * (cs.flatMap encode).length := by
  induction cs with
  | nil => exact Nat.le_refl 0
  | cons i more ih =>
    have hone := pixelsOf_le (hwf i List.mem_cons_self)
    have hmore := ih fun j hj => hwf j (List.mem_cons_of_mem i hj)
    rw [List.map_cons, List.sum_cons, List.flatMap_cons, List.length_append]
    omega

theorem bytes_le_pixels (cs : List Instr) : (cs.flatMap encode).length ≤ 5 * (cs.map pixelsOf).sum := by
  induction cs with
  | nil => exact Nat.le_refl 0
  | cons i more ih =>
    have hone := length_encode_le i
    rw [List.map_cons, List.sum_cons, List.flatMap_cons, List.length_append]
    omega

/-- Every chunk counts, so without the last one there are fewer pixels. -/
theorem pixels_dropLast_lt {cs : List Instr} (h : cs ≠ []) :
    (cs.dropLast.map pixelsOf).sum < (cs.map pixelsOf).sum := by
  have hlast := pixelsOf_pos (cs.getLast h)
  conv => rhs; rw [← List.dropLast_append_getLast h]
  rw [List.map_append, List.sum_append, List.map_singleton, List.sum_singleton]
  omega

/-! ### What a whole encode leaves -/

/-- Coding pixels changes the cache, PREV, BPOS, CNT, RUNLEN and ENC_OUT at most. -/
theorem encodePixels_rest (s : State) (ps : List Pixel) :
    ps.foldl State.encodePixel s = { s with
      cache := (ps.foldl State.encodePixel s).cache, prev := (ps.foldl State.encodePixel s).prev,
      bpos := (ps.foldl State.encodePixel s).bpos, cnt := s.cnt + BitVec.ofNat 64 ps.length,
      runLen := (ps.foldl State.encodePixel s).runLen, encOut := (ps.foldl State.encodePixel s).encOut } := by
  induction ps generalizing s with
  | nil => simp
  | cons p more ih =>
    have hcnt : s.cnt + 1 + BitVec.ofNat 64 more.length = s.cnt + BitVec.ofNat 64 (more.length + 1) := by
      rw [Nat.add_comm more.length, BitVec.ofNat_add, BitVec.add_assoc]
      rfl
    rw [List.foldl_cons, ih, encodePixel_rest, List.length_cons]
    simp only [hcnt]

/-! ### The pixels a host supplies -/

/-- A pixel all of whose samples the host supplied is there. -/
theorem inputPixel_of_supplied {c : Nat} (hc : c = 3 ∨ c = 4) {samples : List Byte} {i : Nat}
    (h : c * (i + 1) ≤ samples.length) : ∃ p, inputPixel c samples i = some p := by
  have hlength : c ≤ (samples.drop (c * i)).length := by
    rw [List.length_drop]
    rw [Nat.mul_succ] at h
    omega
  unfold inputPixel
  rcases hc with rfl | rfl
  · match samples.drop (3 * i), hlength with
    | r :: g :: b :: _, _ => exact ⟨_, rfl⟩
  · match samples.drop (4 * i), hlength with
    | r :: g :: b :: a :: _, _ => exact ⟨_, rfl⟩

theorem inputPixels_of_supplied {c : Nat} (hc : c = 3 ∨ c = 4) {samples : List Byte} {n : Count}
    (h : c * n.toNat ≤ samples.length) : ∃ ps, inputPixels c samples n = some ps := by
  have hall : ∀ o ∈ (List.range n.toNat).map (inputPixel c samples), o ∈ Set.range some := by
    intro o ho
    obtain ⟨i, hi, rfl⟩ := List.mem_map.1 ho
    obtain ⟨p, hp⟩ := inputPixel_of_supplied hc ((Nat.mul_le_mul_left c (List.mem_range.1 hi)).trans h)
    exact ⟨p, hp.symm⟩
  obtain ⟨ps, hps⟩ := (Set.range_list_map some).ge hall
  exact ⟨ps, mapM_eq_some_iff.2 hps.symm⟩

end Sys2Proof.Machine
end

section
/-! The statements about whole encodes (42_encode.md R126, 70_reset_and_hazards.md R182). -/

namespace Sys2Proof.Machine

/-- With its samples supplied an encode is DONE with every pixel counted and no flag, and its output is the bytes of
well-formed chunks that stand for N pixels, and the end marker. -/
theorem wholeEncode_of_supplied {samples : List Byte} {n : Count} {c : Nat} (hc : c = 3 ∨ c = 4)
    (h : c * n.toNat ≤ samples.length) :
    ∃ (t : State) (cs : List Instr), wholeEncode samples n c = .next t ∧ t.phase = .done ∧ t.cnt = n ∧ t.status = clearFlags ∧
      t.encodedBytes = some (cs.flatMap encode ++ endMarker) ∧ (∀ i ∈ cs, i.wellFormed = true) ∧
      (cs.map pixelsOf).sum = n.toNat := by
  obtain ⟨ps, hps⟩ := inputPixels_of_supplied hc h
  have hlength := length_of_inputPixels hps
  have hpending : (encodeStart samples n c).runLen.toNat ≤ 61 := Nat.zero_le 61
  have hrest := encodePixels_rest (encodeStart samples n c) ps
  have hcnt : (ps.foldl State.encodePixel (encodeStart samples n c)).cnt = n := by
    rw [hrest, hlength, BitVec.ofNat_toNat]
    exact (BitVec.zero_add _).trans (BitVec.setWidth_eq n)
  refine ⟨_, _, wholeEncode_of_pixels hc hps, rfl, ?_, ?_, encodedBytes_wholeEncode samples n c ps,
    emitted_wellFormed hpending ps, ?_⟩
  · rw [encodeClose_rest]
    exact hcnt
  · rw [encodeClose_rest, hrest]
    rfl
  · rw [emitted_sum hpending, hlength]
    exact Nat.zero_add _

/-- Settles O49: a chunk has at least a byte for every 62 of its pixels and at most 5 bytes for each. -/
theorem everyEncodeFinishes : Obligations.EveryEncodeFinishes := by
  intro samples n c hc hsupplied
  obtain ⟨t, cs, hrun, hdone, hcnt, hstatus, hbytes, hwf, hsum⟩ := wholeEncode_of_supplied hc hsupplied
  have hlower := pixels_le_bytes hwf
  have hupper := bytes_le_pixels cs
  rw [hsum] at hlower hupper
  exact ⟨t, _, hrun, hdone, hcnt, hstatus, hbytes, by omega, hupper⟩

/-- Settles O50: an encode's output is a complete stream of N pixels, and `completeStreamDecodesClean` decodes it. -/
theorem encodedStreamDecodesClean : Obligations.EncodedStreamDecodesClean := by
  intro samples n c hc hsupplied
  obtain ⟨t, cs, hrun, -, -, -, hbytes, hwf, hsum⟩ := wholeEncode_of_supplied hc hsupplied
  have hneeded : (cs.dropLast.map pixelsOf).sum < n.toNat ∨ (cs = [] ∧ n = 0) := by
    by_cases hempty : cs = []
    · subst hempty
      exact .inr ⟨rfl, BitVec.eq_of_toNat_eq hsum.symm⟩
    · exact .inl ((pixels_dropLast_lt hempty).trans_eq hsum)
  obtain ⟨d, hdec, hdone, hcnt, hstatus, -⟩ := completeStreamDecodesClean cs [] n hwf hsum.ge hneeded
  rw [List.append_nil] at hdec
  exact ⟨t, _, d, hrun, hbytes, hdec, hdone, hcnt, hstatus⟩

end Sys2Proof.Machine
end

section
/-! SUPPORT. The bytes of the small chunks as R118 and R119 write them, the choice of the literal chunk in byte arithmetic,
and what the step on one input pixel does (42_encode.md R110 to R124). -/

namespace Sys2Proof.Machine

/-! ### The bytes of DIFF and LUMA -/

theorem diff_byte : ∀ fr fg fb : BitVec 2, (0b01#2 ++ fr ++ fg ++ fb : Byte) =
    0x40 ||| fr.setWidth 8 <<< 4 ||| fg.setWidth 8 <<< 2 ||| fb.setWidth 8 := by decide

theorem luma_tag_byte : ∀ fgl : BitVec 6, (0b10#2 ++ fgl : Byte) = 0x80 ||| fgl.setWidth 8 := by decide

theorem luma_difference_byte : ∀ frg fbg : BitVec 4, (frg ++ fbg : Byte) = frg.setWidth 8 <<< 4 ||| fbg.setWidth 8 := by
  decide

/-- A delta in range is stored with its bias added (R57, R77). -/
theorem setWidth_biased {w : Nat} {d : Byte} (h : (d.toNat + 2 ^ (w - 1)) % 256 < 2 ^ w) :
    (biased w d).setWidth 8 = d + BitVec.ofNat 8 (2 ^ (w - 1)) := by
  apply BitVec.eq_of_toNat_eq
  rw [biased, BitVec.toNat_setWidth, BitVec.toNat_ofNat, Nat.mod_eq_of_lt h, BitVec.toNat_add, BitVec.toNat_ofNat]
  omega

theorem encode_diff {dr dg db : Byte} (hr : dr + 2 ≤ 3) (hg : dg + 2 ≤ 3) (hb : db + 2 ≤ 3) :
    encode (.diff (biased 2 dr) (biased 2 dg) (biased 2 db)) =
      [0x40 ||| (dr + 2) <<< 4 ||| (dg + 2) <<< 2 ||| (db + 2)] := by
  have field {d : Byte} (h : d + 2 ≤ 3) : (biased 2 d).setWidth 8 = d + 2 :=
    setWidth_biased (Nat.lt_succ_of_le (of_decide_eq_true ((inDiff_iff d).2 h)))
  rw [encode, diff_byte, field hr, field hg, field hb]

theorem encode_luma {dg er eb : Byte} (hg : dg + 32 ≤ 63) (hr : er + 8 ≤ 15) (hb : eb + 8 ≤ 15) :
    encode (.luma (biased 6 dg) (biased 4 er) (biased 4 eb)) =
      [0x80 ||| (dg + 32), (er + 8) <<< 4 ||| (eb + 8)] := by
  have hgreen : (biased 6 dg).setWidth 8 = dg + 32 :=
    setWidth_biased (Nat.lt_succ_of_le (of_decide_eq_true ((inLumaG_iff dg).2 hg)))
  have field {e : Byte} (h : e + 8 ≤ 15) : (biased 4 e).setWidth 8 = e + 8 :=
    setWidth_biased (Nat.lt_succ_of_le (of_decide_eq_true ((inLumaRB_iff e).2 h)))
  rw [encode, luma_tag_byte, luma_difference_byte, hgreen, field hr, field hb]

/-! ### The choice of the literal chunk -/

/-- A changed alpha at 4 channels is coded as RGBA, whatever the colour deltas (R117). -/
theorem literalChunk_changedAlpha {prev curr : Pixel} (h : curr.a ≠ prev.a) :
    literalChunk true prev curr = .rgba curr.r curr.g curr.b curr.a := if_pos (by simp [h])

/-- With alpha not changed the choice is among DIFF, LUMA and RGB, by the wrapped deltas (R118 to R120). -/
theorem literalChunk_keptAlpha {hasAlpha : Bool} {prev curr : Pixel} (h : hasAlpha = false ∨ curr.a = prev.a)
    {dr dg db : Byte} (hr : dr = curr.r - prev.r) (hg : dg = curr.g - prev.g) (hb : db = curr.b - prev.b) :
    literalChunk hasAlpha prev curr =
      if dr + 2 ≤ 3 ∧ dg + 2 ≤ 3 ∧ db + 2 ≤ 3 then .diff (biased 2 dr) (biased 2 dg) (biased 2 db)
      else if dg + 32 ≤ 63 ∧ (dr - dg) + 8 ≤ 15 ∧ (db - dg) + 8 ≤ 15 then
        .luma (biased 6 dg) (biased 4 (dr - dg)) (biased 4 (db - dg))
      else .rgb curr.r curr.g curr.b := by
  have hkept : ¬(hasAlpha && decide (curr.a ≠ prev.a)) = true := by
    rcases h with h | h <;> simp [h]
  rw [literalChunk, if_neg hkept]
  simp only [sub8_eq, ← hr, ← hg, ← hb, Bool.and_eq_true, inDiff_iff, inLumaG_iff, inLumaRB_iff, and_assoc]

/-! ### The step on one input pixel -/

/-- A pixel of a run is counted, and a full run starts over (R112). -/
theorem runLen_encodePixel_same {e : State} {p : Pixel} (hp : p = e.prev) :
    (e.encodePixel p).runLen = if e.runLen + 1 = 62 then 0 else e.runLen + 1 := by
  rw [State.encodePixel, if_pos hp]
  refine (firstPixelFixup_runLen _ p).trans ?_
  split
  next hfull => rw [countRun_full hfull]
  next hgrow => rw [countRun_grow hgrow]

/-- The state the step of the PSE starts from where no command comes: a quiet entry is off the port (log entry 1). -/
def State.quieted (s : State) : State := { s with port := s.port.tail }

/-- The state in which a due encode step leaves the machine. -/
def State.coded (s : State) (curr : Pixel) : State := s.quieted.encodePixel curr

theorem Streams.appends {s t : State} {bs : List Byte} (h : Streams s t bs) : Appends s t bs :=
  (appends_outBytes s bs).congr rfl rfl h.2 h.1

/-- The step appends the bytes of its chunks (R123). -/
theorem appends_coded (s : State) (curr : Pixel) : Appends s (s.coded curr) ((s.chunksOf curr).flatMap encode) :=
  (streams_encodePixel s.quieted curr).appends.congr rfl rfl rfl rfl

theorem flushBytes_eq (s : State) : flushBytes s = s.pendingRun.flatMap encode := by
  unfold flushBytes State.pendingRun
  split
  · rfl
  · rw [List.flatMap_singleton, encode, run_byte]

theorem coded_rest (s : State) (curr : Pixel) :
    s.coded curr = { s with
      port := s.port.tail, prev := curr, cnt := (s.coded curr).cnt, runLen := (s.coded curr).runLen,
      bpos := (s.coded curr).bpos, encOut := (s.coded curr).encOut, cache := (s.coded curr).cache } := by
  have hrest := encodePixel_rest s.quieted curr
  rwa [← encodePixel_cnt s.quieted curr] at hrest

theorem cachedIn_of_store {s t : State} {p : Pixel} (h : t.datapath = s.datapath.store p) : CachedIn s t p :=
  fun i => (congrArg (Datapath.lookup · i) h).trans (Datapath.lookup_store s.datapath p i)

section DueStep
variable {s : State} {curr : Pixel}

theorem coded_cnt_toNat (h : EncodesNext s curr) : (s.coded curr).cnt.toNat = s.cnt.toNat + 1 := by
  obtain ⟨-, -, -, -, hin⟩ := h
  rw [State.coded, encodePixel_cnt]
  exact cnt_succ s (inPixel_some hin)

/-- The step on a differing pixel flushes the run, codes the one chunk and sets PREV (R114, R122, R123). -/
theorem codes_differing (h : EncodesNext s curr) (hp : curr ≠ s.prev) :
    CodesPixel s (s.coded curr) curr ∧ Appends s (s.coded curr) (flushBytes s ++ encode (s.chunkFor curr)) := by
  have hrun : (s.coded curr).runLen = 0 := runLen_encodePixel_differs (e := s.quieted) hp
  have hbytes := appends_coded s curr
  rw [State.chunksOf, if_neg hp, List.flatMap_append, List.flatMap_singleton, ← flushBytes_eq] at hbytes
  refine ⟨⟨?_, coded_cnt_toNat h⟩, hbytes⟩
  rw [← hrun]
  exact coded_rest s curr

/-- A differing pixel its slot does not hold is written to the cache and coded as its literal chunk (R116). -/
theorem codes_literal (h : EncodesNext s curr) (hp : curr ≠ s.prev) (hnew : s.lookup (cacheIndex curr) ≠ curr)
    {bs : List Byte} (hbytes : encode (literalChunk s.hasAlpha s.prev curr) = bs) :
    ∃ t, step s = .next t ∧ CodesPixel s t curr ∧ CachedIn s t curr ∧ Appends s t (flushBytes s ++ bs) := by
  obtain ⟨hcodes, happends⟩ := codes_differing h hp
  rw [State.chunkFor, if_neg hnew, hbytes] at happends
  exact ⟨_, step_of_encodesNext h, hcodes,
    cachedIn_of_store (datapath_encodePixel_new (e := s.quieted) hp hnew), happends⟩

end DueStep

end Sys2Proof.Machine
end

section
/-! The statements about one encode step (42_encode.md R112 to R125). -/

namespace Sys2Proof.Machine

/-- Settles O22: the chunks of such a step are the full run or none, and the fix-up alone writes the cache. -/
theorem equalPixelContinuesRun : Obligations.EqualPixelContinuesRun := by
  intro s curr h hp
  have hrun : (s.coded curr).runLen = if s.runLen + 1 = 62 then 0 else s.runLen + 1 :=
    runLen_encodePixel_same (e := s.quieted) hp
  have hbytes := appends_coded s curr
  rw [State.chunksOf, if_pos hp] at hbytes
  refine ⟨_, step_of_encodesNext h, coded_cnt_toNat h, ?_, ?_, (coded_rest s curr).trans (by rw [hp]; rfl)⟩
  · split
    next hfull =>
      rw [if_pos hfull] at hbytes hrun
      exact ⟨hbytes, hrun⟩
    next hgrow =>
      rw [if_neg hgrow] at hbytes hrun
      exact ⟨hbytes, hrun⟩
  · split
    next hfirst =>
      exact cachedIn_of_store (datapath_encodePixel_fixup (e := s.quieted) hp hfirst)
    next hstarted =>
      exact congrArg Datapath.cache (datapath_encodePixel_same (e := s.quieted) hp hstarted)

/-- Settles O23: the chunk is INDEX, and the datapath changes in PREV alone. -/
theorem heldPixelCodesIndex : Obligations.HeldPixelCodesIndex := by
  intro s curr h hp hheld
  obtain ⟨hcodes, hbytes⟩ := codes_differing h hp
  rw [State.chunkFor, if_pos hheld, encode, index_byte] at hbytes
  exact ⟨_, step_of_encodesNext h, hcodes,
    congrArg Datapath.cache (datapath_encodePixel_held (e := s.quieted) hp hheld), hbytes⟩

/-- Settles O24: the literal chunk is RGBA. -/
theorem changedAlphaCodesRgba : Obligations.ChangedAlphaCodesRgba := by
  intro s curr h hp hnew halpha hchanged
  exact codes_literal h hp hnew (by rw [halpha, literalChunk_changedAlpha hchanged]; rfl)

/-- Settles O25: the literal chunk is DIFF. -/
theorem smallDeltaCodesDiff : Obligations.SmallDeltaCodesDiff := by
  intro s curr dr dg db h hp hnew hkept hdr hdg hdb hr hg hb
  refine codes_literal h hp hnew ?_
  rw [literalChunk_keptAlpha hkept hdr hdg hdb, if_pos ⟨hr, hg, hb⟩, encode_diff hr hg hb]

/-- Settles O26: the literal chunk is LUMA. -/
theorem mediumDeltaCodesLuma : Obligations.MediumDeltaCodesLuma := by
  intro s curr dr dg db h hp hnew hkept hdr hdg hdb hlarge hg hr hb
  refine codes_literal h hp hnew ?_
  rw [literalChunk_keptAlpha hkept hdr hdg hdb, if_neg hlarge, if_pos ⟨hg, hr, hb⟩, encode_luma hg hr hb]

/-- Settles O27: the literal chunk is RGB. -/
theorem otherPixelCodesRgb : Obligations.OtherPixelCodesRgb := by
  intro s curr dr dg db h hp hnew hkept hdr hdg hdb hlarge hlarger
  refine codes_literal h hp hnew ?_
  rw [literalChunk_keptAlpha hkept hdr hdg hdb, if_neg hlarge, if_neg hlarger]
  rfl

/-- Settles O28: the step is the closing step, the flush and then the marker. -/
theorem encodeCloseEmitsMarker : Obligations.EncodeCloseEmitsMarker := by
  intro s hquiet hphase hmode hfull
  have hstep : step s = .next s.quieted.encodeClose :=
    (step_of_noCommand hquiet).trans <| (runPse_enc (s := s.quieted) hphase hmode).trans (encodeStep_of_full hfull)
  refine ⟨_, hstep, ?_, encodeClose_rest _⟩
  rw [flushBytes_eq]
  exact (streams_encodeAll s.quieted []).appends.congr rfl rfl rfl rfl

end Sys2Proof.Machine
end

section
/-! SUPPORT. Rules about the Header Codec: a word's four bytes, what reading a header can answer, the pixel count
(43_container_framing.md R140 to R143). -/

namespace Sys2Proof.Machine

/-- The four bytes of `wordToBytes`, joined again as `readHeader` joins them. -/
theorem append_wordToBytes (w : BitVec 32) :
    w.extractLsb' 24 8 ++ w.extractLsb' 16 8 ++ w.extractLsb' 8 8 ++ w.extractLsb' 0 8 = w := by
  rw [BitVec.extractLsb'_append_extractLsb'_eq_extractLsb' (by rfl),
    BitVec.extractLsb'_append_extractLsb'_eq_extractLsb' (by rfl),
    BitVec.extractLsb'_append_extractLsb'_eq_extractLsb' (by rfl)]
  exact BitVec.extractLsb'_eq_self

theorem length_writeHeader (h : Header) : (writeHeader h).length = 14 := rfl

theorem readHeader_writeHeader_append (h : Header) (rest : List Byte) : readHeader (writeHeader h ++ rest) = .ok h := by
  simp [writeHeader, headerMagic, wordToBytes, readHeader, append_wordToBytes]

/-- A file of at least 14 bytes has the shape `readHeader` matches. -/
theorem cons_bytes_of_length {file : List Byte} (h : 14 ≤ file.length) :
    file[0] :: file[1] :: file[2] :: file[3] :: file[4] :: file[5] :: file[6] :: file[7] :: file[8] :: file[9] ::
      file[10] :: file[11] :: file[12] :: file[13] :: file.drop 14 = file := by
  simp only [List.getElem_cons_drop, List.drop_zero]

/-- Reading a header runs out of bytes, meets a wrong magic, or answers a header (R142). -/
theorem readHeader_outcomes (file : List Byte) :
    (file.length < 14 ∧ readHeader file = .error .shortRead) ∨
    (14 ≤ file.length ∧ file.take 4 ≠ headerMagic ∧ readHeader file = .error .badMagic) ∨
    (14 ≤ file.length ∧ file.take 4 = headerMagic ∧ ∃ h, readHeader file = .ok h) := by
  fun_cases readHeader file
  case case1 hmagic => exact .inr (.inr ⟨by simp, hmagic, _, rfl⟩)
  case case2 hmagic => exact .inr (.inl ⟨by simp, hmagic, rfl⟩)
  case case3 hshape =>
    exact .inl ⟨Nat.lt_of_not_le fun hlen => hshape _ _ _ _ _ _ _ _ _ _ _ _ _ _ _ (cons_bytes_of_length hlen).symm, rfl⟩

/-- The product of two 32-bit dimensions stays below 2^64 (R143). -/
theorem toNat_pixelCount (width height : BitVec 32) : (pixelCount width height).toNat = width.toNat * height.toNat := by
  have hfits : width.toNat * height.toNat < 2 ^ 32 * 2 ^ 32 := Nat.mul_lt_mul'' width.isLt height.isLt
  rw [pixelCount, BitVec.toNat_mul, BitVec.toNat_setWidth_of_le (by decide), BitVec.toNat_setWidth_of_le (by decide)]
  exact Nat.mod_eq_of_lt hfits

/-! ### What the host does before a decode (R145, R155, R156) -/

theorem hostDecode_of_header {file : List Byte} {h : Header} (hread : readHeader file = .ok h) (reserved : Bool) :
    hostDecode (some file) reserved =
      if reserved then .ok (.startDec (pixelCount h.width h.height) (file.drop 14)) else .error .allocationFailure := by
  simp only [hostDecode, hread]

theorem hostDecode_of_malformed {file : List Byte} {e : HeaderError} (hread : readHeader file = .error e)
    (reserved : Bool) : hostDecode (some file) reserved = .error .headerMalformed := by
  simp only [hostDecode, hread]

end Sys2Proof.Machine
end

section
/-! The statements about the Header Codec and the host's start of a decode (43_container_framing.md). -/

namespace Sys2Proof.Machine

/-- Settles O54: reading a header has three outcomes, and the file's length and magic tell them apart. -/
theorem headerRejectsShortOrBadMagic : Obligations.HeaderRejectsShortOrBadMagic := by
  intro file
  rw [← headerMagic]
  obtain ⟨hlen, hread⟩ | ⟨hlen, hmagic, hread⟩ | ⟨hlen, hmagic, h, hread⟩ := readHeader_outcomes file
  · simp [hread, hlen]
  · simp [hread, hlen, hmagic]
  · simp [hread, hlen, hmagic]

/-- Settles O53: the two words join up again from their bytes. -/
theorem headerReadsBack : Obligations.HeaderReadsBack := fun h rest =>
  ⟨readHeader_writeHeader_append h rest, length_writeHeader h⟩

/-- Settles O55: the product fits in 64 bits. -/
theorem pixelCountIsProduct : Obligations.PixelCountIsProduct := toNat_pixelCount

/-- Settles O56: the host's answer follows the header's. -/
theorem hostStartsDecode : Obligations.HostStartsDecode := fun _ _ =>
  ⟨fun hread => ⟨hostDecode_of_header hread true, hostDecode_of_header hread false⟩,
    fun _ reserved hread => hostDecode_of_malformed hread reserved⟩

end Sys2Proof.Machine
end

section
/-! The statements about the conditions of the PSE (60_exceptions.md). -/

namespace Sys2Proof.Machine

/-- In a finished decode a cut chunk means missing pixels, and missing pixels a missing marker (R97, R160). -/
theorem PseInv.doneFlags {s : State} (h : PseInv s) (hdone : s.phase = .done) (hmode : s.mode = .dec) :
    (s.status.trunc = true → s.status.underfill = true) ∧
      (s.status.underfill = true → s.status.trailerBad = true) := by
  obtain ⟨hmissing, hmarker⟩ := h.underfilled hdone hmode
  refine ⟨fun htrunc => ?_, hmarker⟩
  obtain ⟨-, -, -, hlt⟩ := h.truncated htrunc
  exact hmissing.2 hlt

/-- The table of R160 lists the chains TRUNC implies UNDERFILL implies TRAILER_BAD. -/
theorem mem_flagSets_of_chain : ∀ {trunc underfill trailerBad : Bool},
    (trunc = true → underfill = true) ∧ (underfill = true → trailerBad = true) →
    (trunc, underfill, trailerBad) ∈
      [(false, false, false), (false, false, true), (false, true, true), (true, true, true)] := by
  decide

/-- Settles O42: the step keeps the invariant, which orders the three flags once the decode is done. -/
theorem flagSetsOfADecode : Obligations.FlagSetsOfADecode := by
  intro s t hinv hstep hdone hmode
  exact mem_flagSets_of_chain ((stepKeepsPseInv s t hinv hstep).doneFlags hdone hmode)

/-- Settles O46: STATUS is not among the registers an encode step writes, and a decode step is not enabled. -/
theorem encoderRaisesNothing : Obligations.EncoderRaisesNothing := by
  intro s t hstep hmode
  rcases runPse_cases hstep.runPse with ⟨-, rfl⟩ | ⟨-, hdec, -⟩ | ⟨-, -, henc⟩
  · rfl
  · exact absurd (hmode.symm.trans hdec) (by decide)
  · rw [encodeStep_rest henc]

/-- Settles O33: the step is the command, and the command is refused. -/
theorem otherChannelCountsRefused : Obligations.OtherChannelCountsRefused := by
  intro s n channels samples more hport hphase hthree hfour
  have hrefused := startEnc_refused (s := { s with port := more }) hphase n (not_or.2 ⟨hthree, hfour⟩) samples
  exact step_of_command hport (congrArg some hrefused)

end Sys2Proof.Machine
end
